-- ==== Sys2Proof/Word.lean ====
section
/-! DEFINITION. The three unsigned widths of the hardware (R9, R10, R7 `LEN_WIDTH`). There is no signed quantity. -/

namespace Sys2Proof

/-- A byte, 0 to 255 (R9). -/
abbrev Byte := BitVec 8

/-- A header field, 32 bits, unsigned (R6 `FIELD_BITS`, R10). -/
abbrev Word := BitVec 32

/-- A length or offset of `LEN_WIDTH` = 33 bits (R7): `24 + (2^32 - 1)` fits without wrapping. -/
abbrev Offset := BitVec 33

/-- `zext_33(v)` (R10). -/
def zext33 (v : Word) : Offset := v.setWidth 33

end Sys2Proof
end

