-- ==== Sys2Proof/Config.lean ====
section
/-! DEFINITION. What is fixed for the hardware and is not state (R16): the six command constants, the header's field offsets,
and the value that `State.reset` gives the open parameter `MAX_PAYLOAD`.

The sizes of R6 (24 header bytes, 6 fields, 4 bytes and 32 bits a field, payload at offset 24) are hard-coded, as R6 asks:
they stand as the literals 24, 4 and 32 wherever the spec's own pseudocode writes them. -/

namespace Sys2Proof

/-- SYNC's tag (R65, R116). -/
def cmdSync : Word := 0x434E5953
/-- CONNECT's tag (R65, R117). -/
def cmdConnect : Word := 0x4E584E43
/-- OPEN's tag (R65, R118). -/
def cmdOpen : Word := 0x4E45504F
/-- READY's tag (R65, R119). -/
def cmdReady : Word := 0x59414B4F
/-- CLOSE's tag (R65, R120). -/
def cmdClose : Word := 0x45534C43
/-- WRITE's tag (R65, R121). -/
def cmdWrite : Word := 0x45545257

/-- The closed enumeration of R8: `NUM_COMMANDS` = 6 tags. -/
def knownCommands : List Word := [cmdSync, cmdConnect, cmdOpen, cmdReady, cmdClose, cmdWrite]

/-- DESIGN CHOICE (log entry 3, unsafe): the value of the open parameter `MAX_PAYLOAD` (R7, D1) in `State.reset`, the one
the spec's own vectors use. The parameter itself is the field `maxPayload` of State, so a claim about every state is a claim
about every cap; no statement rests on this value. -/
def resetMaxPayload : Word := 4096

end Sys2Proof
end

