-- ==== Sys2Proof/Syntax.lean ====
section
/-! DEFINITION. The instructions: a message is an instruction (R60, R64, INDEX), one constructor per row of the opcode table. -/

namespace Sys2Proof

/-- The operands every message has, whatever its command (R64): the two arguments, the declared length, the checksum field,
the magic field and the payload bytes in stream order. -/
structure Operands where
  arg0 : Word
  arg1 : Word
  length : Word
  crc32 : Word
  magic : Word
  payload : List Byte
deriving DecidableEq, Repr

/-- One ADB message, by the row of R65 its `command` field selects. -/
inductive Instr where
  /-- SYNC (R116). -/
  | sync (m : Operands)
  /-- CONNECT (R117). -/
  | connect (m : Operands)
  /-- OPEN (R118). -/
  | openMsg (m : Operands)
  /-- READY (R119). -/
  | ready (m : Operands)
  /-- CLOSE (R120). -/
  | close (m : Operands)
  /-- WRITE (R121). -/
  | write (m : Operands)
  /-- UNRECOGNIZED (R122): any other command value, kept raw. -/
  | unrecognized (command : Word) (m : Operands)
deriving DecidableEq, Repr

end Sys2Proof
end

