-- ==== Sys2Proof/WellFormed.lean ====
section
/-! DEFINITION. When a term of `Instr` is a message that exists on the wire (R60, R65). -/

namespace Sys2Proof

/-- A message's payload has exactly `length` bytes (R60). -/
def Operands.wellFormed (m : Operands) : Bool := decide (m.payload.length = m.length.toNat)

/-- Well-formed: the payload has the declared length, and UNRECOGNIZED carries none of the six known tags (R65, R122).
`MAX_PAYLOAD` plays no part: "the wire format imposes no limit" (R68). -/
def Instr.wellFormed : Instr → Bool
  | .sync m => m.wellFormed
  | .connect m => m.wellFormed
  | .openMsg m => m.wellFormed
  | .ready m => m.wellFormed
  | .close m => m.wellFormed
  | .write m => m.wellFormed
  | .unrecognized c m => decide (c ∉ knownCommands) && m.wellFormed

end Sys2Proof
end

