-- ==== Sys2Proof/Decode.lean ====
section
/-! DEFINITION. From bytes to messages and back: the little-endian primitive (R11), the header (R62, R102), the command map
(R65, R103), the length of a message (R80), the decoder (R104), the encoder (R71), the message notation of the spec's
vectors (R70), and the words of the opcode table (R61). Decoding is total; its only rejection is `InsufficientData`. -/

namespace Sys2Proof

/-! ## The signal -/

/-- The non-terminal signal of R130: "need `total` bytes, counted from the message boundary". It changes no state. -/
inductive Signal where
  | insufficientData (total : Offset)
deriving DecidableEq, Repr

/-! ## Bytes and words -/

/-- The value of four bytes, the first the least significant (R11). -/
def le4 (b0 b1 b2 b3 : Byte) : Word :=
  BitVec.ofNat 32 (b0.toNat + 2 ^ 8 * b1.toNat + 2 ^ 16 * b2.toNat + 2 ^ 24 * b3.toNat)

/-- `LE32(s, off)` (R11), defined when `off + 4 <= len(s)`. -/
def le32 (s : List Byte) (off : Nat) : Option Word :=
  match s.drop off with
  | b0 :: b1 :: b2 :: b3 :: _ => some (le4 b0 b1 b2 b3)
  | _ => none

/-- `BYTES32(v)` (R11): the four bytes of `v`, least significant first. -/
def bytes32 (v : Word) : List Byte :=
  [v.extractLsb' 0 8, v.extractLsb' 8 8, v.extractLsb' 16 8, v.extractLsb' 24 8]

/-- `s[a..b]` (R9), the half-open slice. -/
def slice (s : List Byte) (a b : Nat) : List Byte := (s.drop a).take (b - a)

/-- The unsigned integer that bytes spell, byte 0 least significant (R61). -/
def natOfBytes : List Byte → Nat
  | [] => 0
  | b :: bs => b.toNat + 2 ^ 8 * natOfBytes bs

/-- The header word `H` of R61, over the first 24 bytes. -/
def headerWord (h : List Byte) : BitVec 192 := BitVec.ofNat 192 (natOfBytes (h.take 24))

/-! ## The header -/

/-- The six header fields (R62). -/
structure Header where
  command : Word
  arg0 : Word
  arg1 : Word
  length : Word
  crc32 : Word
  magic : Word
deriving DecidableEq, Repr

/-- `HDR_DECODE(b)` (R102). The reads succeed exactly when `b` has at least 24 bytes. -/
def hdrDecode (b : List Byte) : Except Signal Header :=
  match le32 b 0, le32 b 4, le32 b 8, le32 b 12, le32 b 16, le32 b 20 with
  | some c, some a0, some a1, some n, some k, some m => .ok ⟨c, a0, a1, n, k, m⟩
  | _, _, _, _, _, _ => .error (.insufficientData 24)

/-- `ENCODE` (R71): the 24 bytes of a header. -/
def encodeHeader (h : Header) : List Byte :=
  bytes32 h.command ++ bytes32 h.arg0 ++ bytes32 h.arg1 ++ bytes32 h.length ++ bytes32 h.crc32 ++ bytes32 h.magic

/-- `MAGIC_MATCH(h)` (R107): for hosts and test benches only; no operation of the block evaluates it. -/
def magicMatch (h : Header) : Bool := decide (h.magic = ~~~h.command)

/-! ## The command map -/

/-- The result of classification (R103): a known command, or "unrecognized" with the raw value. -/
inductive Command where
  | sync
  | connect
  | openMsg
  | ready
  | close
  | write
  | unrecognized (raw : Word)
deriving DecidableEq, Repr

/-- `CLASSIFY(v)` (R103): exact match on all 32 bits against the six constants. -/
def classify (v : Word) : Command :=
  if v = cmdSync then .sync
  else if v = cmdConnect then .connect
  else if v = cmdOpen then .openMsg
  else if v = cmdReady then .ready
  else if v = cmdClose then .close
  else if v = cmdWrite then .write
  else .unrecognized v

/-- `cmd_class` (R65, R106); 7 is never produced. -/
def Command.code : Command → BitVec 3
  | .unrecognized _ => 0
  | .sync => 1
  | .connect => 2
  | .openMsg => 3
  | .ready => 4
  | .close => 5
  | .write => 6

/-! ## The length of a message -/

/-- `24 + length`, in 33 bits, never wrapping (R69, R101). -/
def messageTotal (length : Word) : Offset := 24 + zext33 length

/-- `REQUIRED_LENGTH(p)` (R80). It applies no cap. -/
def requiredLength (p : List Byte) : Except Signal Offset :=
  if p.length < 24 then .error (.insufficientData 24)
  else
    match le32 p 12 with
    | some len => .ok (messageTotal len)
    | none => .error (.insufficientData 24)

/-- A Message (R81): "Header + payload", the header still as its 24 bytes (90_conflicts.md C5). -/
structure Message where
  header : List Byte
  payload : List Byte
deriving DecidableEq, Repr

/-- `ON_COMPLETE_MESSAGE(b)` (R81), for `len(b) = 24 + LE32(b, 12)`. -/
def onCompleteMessage (b : List Byte) : Message := ⟨slice b 0 24, slice b 24 b.length⟩

/-! ## Decoding a message -/

/-- The operands of a message with header `h` and payload `p` (R64). -/
def Header.operands (h : Header) (p : List Byte) : Operands :=
  { arg0 := h.arg0, arg1 := h.arg1, length := h.length, crc32 := h.crc32, magic := h.magic, payload := p }

/-- The message with header `h` and payload `p`: only `command` selects the row (R66). -/
def instrOf (h : Header) (p : List Byte) : Instr :=
  match classify h.command with
  | .sync => .sync (h.operands p)
  | .connect => .connect (h.operands p)
  | .openMsg => .openMsg (h.operands p)
  | .ready => .ready (h.operands p)
  | .close => .close (h.operands p)
  | .write => .write (h.operands p)
  | .unrecognized raw => .unrecognized raw (h.operands p)

/-- The decoder (R104 as far as the message): total on every byte sequence, and every header is decodable (R67). It rejects by
name, with R104's two signals: fewer than 24 bytes, or fewer than `24 + length`. Surplus bytes are ignored (D19). -/
def decode (b : List Byte) : Except Signal Instr :=
  match hdrDecode b with
  | .error e => .error e
  | .ok h =>
    if b.length < (messageTotal h.length).toNat then .error (.insufficientData (messageTotal h.length))
    else .ok (instrOf h (slice b 24 (messageTotal h.length).toNat))

/-! ## Encoding a message -/

/-- The `command` field of a message (R65). -/
def Instr.command : Instr → Word
  | .sync _ => cmdSync
  | .connect _ => cmdConnect
  | .openMsg _ => cmdOpen
  | .ready _ => cmdReady
  | .close _ => cmdClose
  | .write _ => cmdWrite
  | .unrecognized c _ => c

/-- The operands of a message (R64). -/
def Instr.operands : Instr → Operands
  | .sync m => m
  | .connect m => m
  | .openMsg m => m
  | .ready m => m
  | .close m => m
  | .write m => m
  | .unrecognized _ m => m

/-- The header of a message (R62). -/
def Instr.header (i : Instr) : Header :=
  { command := i.command, arg0 := i.operands.arg0, arg1 := i.operands.arg1, length := i.operands.length,
    crc32 := i.operands.crc32, magic := i.operands.magic }

/-- The bytes of a message on the wire: header, then payload, no padding and no delimiter (R60, R71). -/
def encode (i : Instr) : List Byte := encodeHeader i.header ++ i.operands.payload

/-! ## The words of the opcode table -/

/-- The low `n` bytes of `w`, least significant first. -/
def bytesLE : Nat → Nat → List Byte
  | 0, _ => []
  | n + 1, w => BitVec.ofNat 8 w :: bytesLE n (w / 256)

/-- The wire bytes of the message whose table bits are the low `nbits` bits of `w`, every higher bit 0: 24 header bytes (R61),
then as many payload bytes as the header's own `length` field declares. -/
def tableBytes (nbits w : Nat) : List Byte :=
  bytesLE 24 (w % 2 ^ nbits) ++ bytesLE ((w % 2 ^ nbits) / 2 ^ 96 % 2 ^ 32) ((w % 2 ^ nbits) / 2 ^ 192)

/-- The message the decoder reads from a word numbered as the opcode table numbers it. -/
def decodeTableWord (nbits w : Nat) : Option Instr :=
  match decode (tableBytes nbits w) with
  | .ok i => some i
  | .error _ => none

/-! ## The notation of the spec's vectors -/

/-- A message line of R70, with its optional parts. -/
structure MessageLine where
  command : Word
  arg0 : Word
  arg1 : Word
  payload : List Byte := []
  len : Option Word := none
  crc : Option Word := none
  magic : Option Word := none
deriving DecidableEq, Repr

/-- The encoding of a message line, with R70's defaults. -/
def MessageLine.bytes (l : MessageLine) : List Byte :=
  encodeHeader
    { command := l.command, arg0 := l.arg0, arg1 := l.arg1,
      length := l.len.getD (BitVec.ofNat 32 l.payload.length), crc32 := l.crc.getD 0,
      magic := l.magic.getD (~~~l.command) } ++ l.payload

/-- One line of a program of R70: a message or raw bytes. -/
inductive ProgramLine where
  | message (l : MessageLine)
  | rawBytes (bs : List Byte)
deriving DecidableEq, Repr

/-- The bytes of one line (R70). -/
def ProgramLine.bytes : ProgramLine → List Byte
  | .message l => l.bytes
  | .rawBytes bs => bs

/-- The byte stream of a program: the concatenation of its lines (R70). -/
def programBytes (ls : List ProgramLine) : List Byte := (ls.map ProgramLine.bytes).flatten

end Sys2Proof
end

