-- ==== Sys2Proof/Machine/State.lean ====
section
/-! DEFINITION. The state of one framer instance (R20), as plain data, and the machine right after reset (R35). -/

namespace Sys2Proof.Machine

/-- The Decoded Record (R106): what the block hands to the sink, once per complete message. -/
structure Record where
  /-- 0 UNRECOGNIZED, 1 SYNC, 2 CONNECT, 3 OPEN, 4 READY, 5 CLOSE, 6 WRITE; 7 is never produced. -/
  cmdClass : BitVec 3
  command : Word
  arg0 : Word
  arg1 : Word
  length : Word
  crc32 : Word
  magic : Word
  payload : List Byte
deriving DecidableEq, Repr

/-- The message buffer's storage (R21, R30): (offset from the message boundary, byte), offsets strictly rising. An offset that is
not listed has no value: only offsets below `fill` can be read (R30, log entry 6). -/
abbrev Memory := List Host.Cell

/-- What the host can present to an instance (R82). -/
inductive Event where
  /-- RESET (R89). -/
  | reset
  /-- PUSH_BYTE(b) (R83 to R85). -/
  | pushByte (b : Byte)
  /-- PUSH(c) (R87): defined as PUSH_BYTE of each byte of the chunk, in order. -/
  | push (c : List Byte)
deriving DecidableEq, Repr

/-- Why the model stops where the hardware has no state to be in. No state that satisfies R34 raises one. (The spec's own
fault, OversizeLength, is no stop: R133 says what it does to the state, so it is a next state.) -/
inductive Fault where
  /-- Raised by PUSH_BYTE when `fill` counts bytes that the buffer does not hold, so that the header or the message cannot be
  read; R84 and R85 read only bytes that were appended ("cannot signal here"). Safe: the model stops; unreachable under R34. -/
  | bufferHole
  /-- Raised by PUSH_BYTE when the append would go past the `24 + MAX_PAYLOAD` bytes of storage, R42's precondition.
  Safe: the model stops; unreachable under R34. -/
  | bufferOverrun
deriving DecidableEq, Repr

/-- Why an event or an instruction is not taken. -/
inductive Refusal where
  /-- Raised by `exec` for an instruction that has no meaning in the model; no arm does. Safe. -/
  | notModelled (mnemonic : String)
  /-- Raised by PUSH_BYTE before the first RESET (R13, R83, R151): `refuse`, the step does not exist, the byte stays with the
  host. The spec's own refusal, so safe. -/
  | notLive
  /-- Raised by PUSH_BYTE while `fault = 1` (R13, R83, R137): `refuse`, the step does not exist, the byte stays with the host
  until RESET. The spec's own refusal, so safe. -/
  | faultLatched
deriving DecidableEq, Repr

/-- One framer instance (R20), its static parameter, and the events the host has not had taken yet. -/
structure State where
  /-- 0 before the first RESET, 1 after (R29). -/
  live : Bool
  /-- The bytes of the one message in progress (R21). -/
  buf : Memory
  /-- The position counter: the offset at which the next byte will be stored (R24). -/
  fill : Offset
  /-- The expected-length marker, NONE while the header is incomplete (R26). -/
  expected : Option Offset
  /-- The sticky fault bit (R29). -/
  fault : Bool
  /-- The cause code of the fault, 0 or 4 (R29, R134). -/
  faultCause : BitVec 3
  /-- The offending length, else 0 (R29). -/
  faultInfo : Word
  /-- Ghost: bytes accepted since the last RESET, unbounded (R25). -/
  consumed : Nat
  /-- Ghost: the records emitted since the last RESET, in emission order (R33). -/
  out : List Record
  /-- The parameter MAX_PAYLOAD (R7, R29), constant for the life of the instance; no step writes it (log entry 3). -/
  maxPayload : Word
  /-- The model's own: the events the host presents, oldest first (log entry 1). -/
  input : List Event
deriving DecidableEq, Repr

/-- The state that RESET leaves (R35), for a given parameter and the events still to come. -/
def State.afterReset (maxPayload : Word) (input : List Event) : State :=
  { live := true, buf := [], fill := 0, expected := none, fault := false, faultCause := 0, faultInfo := 0,
    consumed := 0, out := [], maxPayload := maxPayload, input := input }

/-- The machine right after reset (R35), with no event presented yet. -/
def State.reset : State := State.afterReset resetMaxPayload []

end Sys2Proof.Machine
end

