-- ==== Sys2Proof/Machine/Ops.lean ====
section
/-! DEFINITION. The named operations over the buffer and the other state elements (R40 to R42, R85, R89, R133). -/

namespace Sys2Proof.Machine

/-! ## The buffer's storage -/

/-- The canonical form: offsets strictly rising. (No byte is what an unlisted offset reads as, since that has no value.) -/
abbrev Memory.wf (m : Memory) : Prop := m.Pairwise (fun x y => x.1 < y.1)

/-- One byte of storage, or no value. -/
def Memory.read : Memory → Nat → Option Byte
  | [], _ => none
  | (a, b) :: m, off => if a = off then some b else Memory.read m off

/-- Storage with byte `b` at offset `off`. -/
def Memory.write : Memory → Nat → Byte → Memory
  | [], off, b => [(off, b)]
  | (a, c) :: m, off, b =>
    if off < a then (off, b) :: (a, c) :: m
    else if off = a then (off, b) :: m
    else (a, c) :: Memory.write m off b

/-- The byte sequence held, in offset order: `buf` as R21 speaks of it. -/
def Memory.bytes (m : Memory) : List Byte := m.map Prod.snd

/-- The storage that holds `bs` from offset `a` on. -/
def Memory.ofBytesFrom : Nat → List Byte → Memory
  | _, [] => []
  | a, b :: bs => (a, b) :: Memory.ofBytesFrom (a + 1) bs

/-- The storage that holds the byte sequence `bs` from the message boundary on. -/
def Memory.ofBytes (bs : List Byte) : Memory := Memory.ofBytesFrom 0 bs

/-- The listed offsets are exactly `0, 1, …, len - 1`: the storage is a byte sequence (R9, R21). -/
abbrev Memory.dense (m : Memory) : Prop := m = Memory.ofBytes m.bytes

/-- `BUF_CAPACITY` (R7): the bytes of storage the buffer has. -/
def State.capacity (s : State) : Nat := 24 + s.maxPayload.toNat

/-! ## Access to the buffer -/

/-- `MemRead(off, 1)` (R41), with its precondition. -/
def memRead8 (off : Nat) (s : State) : Option Byte :=
  if off + 1 ≤ s.fill.toNat then s.buf.read off else none

/-- `MemRead(off, 4)` (R41), with its precondition: little-endian (R43), no alignment (R44). -/
def memRead32 (off : Nat) (s : State) : Option Word :=
  if off + 4 ≤ s.fill.toNat then
    match s.buf.read off, s.buf.read (off + 1), s.buf.read (off + 2), s.buf.read (off + 3) with
    | some b0, some b1, some b2, some b3 => some (le4 b0 b1 b2 b3)
    | _, _, _, _ => none
  else none

/-- `MemWrite(fill, 1, b)` (R42): the only write, an append; `fill` advances by 1 (R24). -/
def appendByte (b : Byte) (s : State) : State :=
  { s with buf := s.buf.write s.fill.toNat b, fill := s.fill + 1 }

/-- The byte is accepted (R83): appended, and counted by the ghost `consumed`. -/
def acceptByte (b : Byte) (s : State) : State :=
  { appendByte b s with consumed := s.consumed + 1 }

/-- `buf <- []; fill <- 0; expected <- NONE` (R85). -/
def emptyBuffer (s : State) : State := { s with buf := [], fill := 0, expected := none }

/-- `expected <- v` (R84). -/
def setExpected (v : Offset) (s : State) : State := { s with expected := some v }

/-! ## The record output -/

/-- `emit r` (R12, R33). -/
def emit (r : Record) (s : State) : State := { s with out := s.out ++ [r] }

/-- The stream bytes that the records of `out` cover (R34 (f), R91). -/
def recordBytes (out : List Record) : Nat := (out.map (fun r => 24 + r.length.toNat)).sum

/-- The completion of a message (R85, R115): its record is emitted and the buffer emptied, in one step. -/
def completeMessage (r : Record) (s : State) : State := emptyBuffer (emit r s)

/-! ## The exception and the return from it -/

/-- `raise OversizeLength(L)` (R133, R137): the only fault. Nothing but the three fault elements changes; the 24 header bytes
stay in `buf`, and no record is emitted. -/
def raiseOversize (len : Word) (s : State) : State :=
  { s with fault := true, faultCause := 4, faultInfo := len }

/-- RESET (R89, R150), which is also the only return from the fault (R138): every state element takes its reset value; the
parameter and the events still to come are not state elements of the block and stay. -/
def resetBlock (s : State) : State := State.afterReset s.maxPayload s.input

/-! ## Sequencing -/

/-- Go on with `f` if there is a next state; a fault or a refusal ends the step. -/
def andThen (o : Host.Outcome State Fault Refusal) (f : State → Host.Outcome State Fault Refusal) :
    Host.Outcome State Fault Refusal :=
  match o with
  | .next s => f s
  | .fault r => .fault r
  | .refused r => .refused r

/-- `MemWrite(fill, 1, b)` with R42's precondition on capacity checked. -/
def memAppend (b : Byte) (s : State) : Host.Outcome State Fault Refusal :=
  if s.fill.toNat < s.capacity then .next (acceptByte b s) else .fault .bufferOverrun

end Sys2Proof.Machine
end

