-- ==== Sys2Proof/Machine/Operands.lean ====
section
/-! DEFINITION. The operands of a message as the hardware reads them: the six header-field views of the buffer (R22), and the
Decoded Record made of a message's bytes (R104 to R106). -/

namespace Sys2Proof.Machine

/-- `x[i]` (R12, R22): header-field view `i` of the buffer, read-only. Valid only when `fill >= 24`; before that the read is the
signal `InsufficientData(24)`, never a value. -/
def State.x (s : State) (i : Fin 6) : Except Signal Word :=
  if s.fill.toNat < 24 then .error (.insufficientData 24)
  else
    match memRead32 (4 * i.val) s with
    | some w => .ok w
    | none => .error (.insufficientData 24)

/-- The record of a message with class code `k` and command value `c` (R106, R115). -/
def recordOf (k : BitVec 3) (c : Word) (m : Operands) : Record :=
  { cmdClass := k, command := c, arg0 := m.arg0, arg1 := m.arg1, length := m.length, crc32 := m.crc32,
    magic := m.magic, payload := m.payload }

/-- `DECODE(b)` (R104), written from the spec's own pseudocode: header fields, classification, payload `b[24..T]`. It applies no
cap, and ignores surplus bytes (D19). -/
def decodeRecord (b : List Byte) : Except Signal Record :=
  match hdrDecode b with
  | .error e => .error e
  | .ok h =>
    if b.length < (messageTotal h.length).toNat then .error (.insufficientData (messageTotal h.length))
    else
      .ok
        { cmdClass := (classify h.command).code, command := h.command, arg0 := h.arg0, arg1 := h.arg1,
          length := h.length, crc32 := h.crc32, magic := h.magic,
          payload := slice b 24 (messageTotal h.length).toNat }

/-- The class code of a message's row (R65). -/
def instrClass : Instr → BitVec 3
  | .sync _ => 1
  | .connect _ => 2
  | .openMsg _ => 3
  | .ready _ => 4
  | .close _ => 5
  | .write _ => 6
  | .unrecognized _ _ => 0

/-- The record of a message (R115): class code of its row, raw command, operands. -/
def instrRecord (i : Instr) : Record := recordOf (instrClass i) i.command i.operands

/-- The stream bytes a record was decoded from (R71, R91): its header fields serialised, then its payload. -/
def Record.wire (r : Record) : List Byte :=
  encodeHeader ⟨r.command, r.arg0, r.arg1, r.length, r.crc32, r.magic⟩ ++ r.payload

end Sys2Proof.Machine
end

