-- ==== Sys2Proof/Machine/Flags.lean ====
section
/-! DEFINITION. The block has no condition codes; its flags are the status outputs (R28), the phase (R27), the status query
(R92) and the condition codes of the four conditions (R134). All are pure functions of the state: reading one is no event. -/

namespace Sys2Proof.Machine

/-- The phase (R27): a derived name, no extra state. -/
inductive Phase where
  | header
  | payload
  | fault
deriving DecidableEq, Repr

/-- The phase of a state (R27). -/
def State.phase (s : State) : Phase :=
  if s.fault then .fault
  else
    match s.expected with
    | none => .header
    | some _ => .payload

/-- `need_total` (R28). -/
def State.needTotal (s : State) : Offset :=
  if s.fault then 0
  else
    match s.expected with
    | none => 24
    | some v => v

/-- `have` (R28). -/
def State.haveBytes (s : State) : Offset := s.fill

/-- What the status query answers (R92). -/
inductive Status where
  | fault (cause : BitVec 3) (info : Word)
  | insufficientData (total : Offset)
deriving DecidableEq, Repr

/-- `STATUS` (R92): no side effect. -/
def State.status (s : State) : Status :=
  if s.fault then .fault s.faultCause s.faultInfo
  else
    match s.expected with
    | none => .insufficientData 24
    | some v => .insufficientData v

/-- The conditions of R130 to R134. -/
inductive Condition where
  | none
  | insufficientData
  | unrecognizedCommand
  | checkMismatch
  | oversizeLength
deriving DecidableEq, Repr

/-- The codes of R134; 5 to 7 are unused. -/
def Condition.code : Condition → BitVec 3
  | .none => 0
  | .insufficientData => 1
  | .unrecognizedCommand => 2
  | .checkMismatch => 3
  | .oversizeLength => 4

/-- The condition that `STATUS` reports (R92, R130, R133). -/
def Status.condition : Status → Condition
  | .fault _ _ => .oversizeLength
  | .insufficientData _ => .insufficientData

end Sys2Proof.Machine
end

