-- ==== Sys2Proof/Machine/Commands.lean ====
section
/-! DEFINITION. The meanings of the seven messages (R115 to R122). A message is executed on the state in which its last byte has
been accepted; the seven differ only in the selecting value and the class code. -/

namespace Sys2Proof.Machine

/-- The common semantics (R115): the message's record is emitted and the buffer emptied. Exception: `OversizeLength` if
`length > MAX_PAYLOAD`, unsigned and strict, and then no record (R84, R133). Arguments, payload, `crc32` and `magic` are
carried, never interpreted. -/
def emitMessage (k : BitVec 3) (c : Word) (m : Operands) (s : State) : Host.Outcome State Fault Refusal :=
  if s.maxPayload < m.length then .next (raiseOversize m.length s)
  else .next (completeMessage (recordOf k c m) s)

/-- SYNC (R116): class code 1. -/
def execSync (m : Operands) (s : State) : Host.Outcome State Fault Refusal := emitMessage 1 cmdSync m s

/-- CONNECT (R117): class code 2. -/
def execConnect (m : Operands) (s : State) : Host.Outcome State Fault Refusal := emitMessage 2 cmdConnect m s

/-- OPEN (R118): class code 3. -/
def execOpen (m : Operands) (s : State) : Host.Outcome State Fault Refusal := emitMessage 3 cmdOpen m s

/-- READY (R119): class code 4. -/
def execReady (m : Operands) (s : State) : Host.Outcome State Fault Refusal := emitMessage 4 cmdReady m s

/-- CLOSE (R120): class code 5. It does not end the byte stream or touch the framer (91_not_in_source.md N18). -/
def execClose (m : Operands) (s : State) : Host.Outcome State Fault Refusal := emitMessage 5 cmdClose m s

/-- WRITE (R121): class code 6. -/
def execWrite (m : Operands) (s : State) : Host.Outcome State Fault Refusal := emitMessage 6 cmdWrite m s

/-- UNRECOGNIZED (R122, R131): class code 0, the raw command value kept; never an error. -/
def execUnrecognized (c : Word) (m : Operands) (s : State) : Host.Outcome State Fault Refusal := emitMessage 0 c m s

end Sys2Proof.Machine
end

