-- ==== Sys2Proof/Machine/Dispatch.lean ====
section
/-! DEFINITION. The one dispatch of the messages to their meanings. -/

namespace Sys2Proof.Machine

def exec (i : Instr) (s : State) : Host.Outcome State Fault Refusal :=
  match i with
  | .sync m => Sys2Proof.Machine.execSync m s
  | .connect m => Sys2Proof.Machine.execConnect m s
  | .openMsg m => Sys2Proof.Machine.execOpen m s
  | .ready m => Sys2Proof.Machine.execReady m s
  | .close m => Sys2Proof.Machine.execClose m s
  | .write m => Sys2Proof.Machine.execWrite m s
  | .unrecognized c m => Sys2Proof.Machine.execUnrecognized c m s

end Sys2Proof.Machine
end

