-- ==== Sys2Proof/Machine/Framer.lean ====
section
/-! DEFINITION. The framer: what each event does (R82 to R89), the fetch of a message from the byte stream, and the chunk and
bulk formulations (R87, R88). -/

namespace Sys2Proof.Machine

/-! ## PUSH_BYTE -/

/-- PUSH_BYTE, part 3 (R85): if the message is complete, decode its bytes and execute it. -/
def completionCheck (s : State) : Host.Outcome State Fault Refusal :=
  match s.expected with
  | none => .next s
  | some v =>
    if s.fill = v then
      match decode s.buf.bytes with
      | .ok i => exec i s
      | .error _ => .fault .bufferHole
    else .next s

/-- PUSH_BYTE, part 2 (R84): at header byte 23, read the length once, apply the cap, and mark the total. The cap is tested before
anything else is done (R136). -/
def headerCheck (s : State) : Host.Outcome State Fault Refusal :=
  if s.fill = 24 then
    match s.x 3 with
    | .ok len =>
      if s.maxPayload < len then .next (raiseOversize len s)
      else completionCheck (setExpected (messageTotal len) s)
    | .error _ => .fault .bufferHole
  else completionCheck s

/-- PUSH_BYTE(b) (R83 to R85, tests in R136's order). The two refusals are the only ones (R13). -/
def pushByte (b : Byte) (s : State) : Host.Outcome State Fault Refusal :=
  if s.live = false then .refused .notLive
  else if s.fault = true then .refused .faultLatched
  else andThen (memAppend b s) headerCheck

/-! ## Events -/

/-- The events still to come once a byte of a chunk has been taken: the rest of the chunk comes first (R87). -/
def chunkRest (c : List Byte) (es : List Event) : List Event :=
  match c with
  | [] => es
  | b :: bs => .push (b :: bs) :: es

/-- One event, already taken from the host's list. A chunk is taken one byte at a time (R46, R87; log entry 1); an empty chunk is a
no-op. -/
def takeEvent (e : Event) (s : State) : Host.Outcome State Fault Refusal :=
  match e with
  | .reset => .next (resetBlock s)
  | .pushByte b => pushByte b s
  | .push [] => .next s
  | .push (b :: bs) => pushByte b { s with input := chunkRest bs s.input }

/-- The oldest event the host presents is taken. With none presented the block waits, without limit (R15, R90, R157; log
entry 2). A refused event is not taken: the step does not exist (R12). -/
def takeNext (s : State) : Host.Outcome State Fault Refusal :=
  match s.input with
  | [] => .next s
  | e :: es => takeEvent e { s with input := es }

/-! ## Chunks -/

/-- What delivering bytes leaves: the state, and the bytes refused, which stay with the host (R87, R137). -/
structure Delivery where
  state : State
  refused : List Byte
deriving DecidableEq, Repr

/-- PUSH(c) (R87): PUSH_BYTE of each byte in order. The first refusal ends it: the state is unchanged by a refusal, so every later
byte would be refused too. -/
def pushChunk : List Byte → State → Host.Outcome Delivery Fault Refusal
  | [], s => .next ⟨s, []⟩
  | b :: bs, s =>
    match pushByte b s with
    | .next t => pushChunk bs t
    | .fault r => .fault r
    | .refused _ => .next ⟨s, b :: bs⟩

/-- Chunks delivered in order (R93); the refused bytes of all of them, in order. -/
def pushChunks : List (List Byte) → State → Host.Outcome Delivery Fault Refusal
  | [], s => .next ⟨s, []⟩
  | c :: cs, s =>
    match pushChunk c s with
    | .next d =>
      match pushChunks cs d.state with
      | .next e => .next ⟨e.state, d.refused ++ e.refused⟩
      | .fault r => .fault r
      | .refused r => .refused r
    | .fault r => .fault r
    | .refused r => .refused r

/-- A host's whole sequence of events, in order: a refused event leaves the state as it is (R12, R13), and the host goes on with its
next event, so that RESET can follow a refused byte (R138). -/
def runEvents : List Event → State → Host.Outcome State Fault Refusal
  | [], s => .next s
  | .reset :: es, s => runEvents es (resetBlock s)
  | .pushByte b :: es, s =>
    match pushChunk [b] s with
    | .next d => runEvents es d.state
    | .fault r => .fault r
    | .refused r => .refused r
  | .push c :: es, s =>
    match pushChunk c s with
    | .next d => runEvents es d.state
    | .fault r => .fault r
    | .refused r => .refused r

/-! ## The bulk formulation -/

/-- What the loop of R88 gives. -/
structure BulkResult where
  /-- the records emitted -/
  records : List Record
  /-- what stays in `buf` -/
  pending : List Byte
  /-- the offending length, if OversizeLength was raised -/
  oversize : Option Word
  /-- the bytes after header byte 23 of the offending message, unconsumed -/
  unread : List Byte
deriving DecidableEq, Repr

/-- The loop of PUSH_BULK (R88). The first argument bounds the number of turns; each turn that goes on takes at least 24
bytes, so `len(pending)` turns are enough. -/
def bulkLoop (maxPayload : Word) : Nat → List Byte → BulkResult
  | 0, p => ⟨[], p, none, []⟩
  | n + 1, p =>
    match hdrDecode p with
    | .error _ => ⟨[], p, none, []⟩
    | .ok h =>
      if maxPayload < h.length then ⟨[], p.take 24, some h.length, p.drop 24⟩
      else
        match decodeRecord (p.take (messageTotal h.length).toNat) with
        | .error _ => ⟨[], p, none, []⟩
        | .ok r =>
          { bulkLoop maxPayload n (p.drop (messageTotal h.length).toNat) with
            records := r :: (bulkLoop maxPayload n (p.drop (messageTotal h.length).toNat)).records }

/-- The marker that goes with a partial message `p`: NONE while its header is incomplete, then its total (R26). -/
def markerOf (p : List Byte) : Option Offset :=
  match requiredLength p with
  | .ok total => some total
  | .error _ => none

/-- What the loop's result makes of the state, for a chunk of `n` bytes: the records are appended, the buffer and the marker are those
of the pending bytes, and the fault is taken where it was raised (`expected` then stays NONE, R133). -/
def applyBulk (n : Nat) (r : BulkResult) (s : State) : Delivery :=
  match r.oversize with
  | none =>
    ⟨{ s with
        buf := Memory.ofBytes r.pending, fill := BitVec.ofNat 33 r.pending.length, expected := markerOf r.pending,
        consumed := s.consumed + (n - r.unread.length), out := s.out ++ r.records }, r.unread⟩
  | some len =>
    ⟨raiseOversize len
      { s with
        buf := Memory.ofBytes r.pending, fill := BitVec.ofNat 33 r.pending.length, expected := none,
        consumed := s.consumed + (n - r.unread.length), out := s.out ++ r.records }, r.unread⟩

/-- PUSH_BULK(c) (R88): the loop on `buf ++ c`. A block that refuses bytes leaves the whole chunk with the host. -/
def pushBulk (c : List Byte) (s : State) : Delivery :=
  if s.live = false ∨ s.fault = true then ⟨s, c⟩
  else applyBulk c.length (bulkLoop s.maxPayload (s.buf.bytes ++ c).length (s.buf.bytes ++ c)) s

/-! ## Placing one message for the next step -/

/-- The number of bytes of a message already accepted when the step that runs it takes one byte more: all but the last, or 23 where
its header is refused by the cap (R84). -/
def bytesBefore (maxPayload : Word) (msg : List Byte) : Nat :=
  match le32 msg 12 with
  | some len => if maxPayload < len then 23 else msg.length - 1
  | none => msg.length - 1

/-- The state in which the block, live and un-faulted, has accepted the message `msg` up to its last byte (header byte 23 where the
cap refuses it), and the host presents that byte next. -/
def placeMessage (msg : List Byte) (s : State) : State :=
  let n := bytesBefore s.maxPayload msg
  { s with
    live := true
    buf := Memory.ofBytes (msg.take n)
    fill := BitVec.ofNat 33 n
    expected := markerOf (msg.take n)
    fault := false
    faultCause := 0
    faultInfo := 0
    consumed := n + recordBytes s.out
    input := (slice msg n (n + 1)).map Event.pushByte ++ s.input }

end Sys2Proof.Machine
end

