-- ==== Sys2Proof/Machine/Step.lean ====
section
/-! DEFINITION. The step: the oldest event the host presents is taken (R15, R46). And the placing of an opcode-table word. -/

namespace Sys2Proof.Machine

/-- One step of the machine. -/
def step (s : State) : Host.Outcome State Fault Refusal := takeNext s

/-- `s` with the message of an opcode-table word accepted up to its last byte, that byte being the next the host presents, so that
the next step fetches and runs exactly that message (log entry 9). -/
def State.withFetchWord (s : State) (nbits w : Nat) : State := placeMessage (tableBytes nbits w) s

end Sys2Proof.Machine
end

