-- ==== Sys2Proof/Machine/Instances.lean ====
section
/-! DEFINITION. Several instances (R140): a product of independent single-instance machines that share nothing. -/

namespace Sys2Proof.Machine

/-- A step of instance `k`, with every other instance left as it is; an index that names no instance changes nothing. -/
def stepInstance (k : Nat) (insts : List State) : Host.Outcome (List State) Fault Refusal :=
  match insts[k]? with
  | none => .next insts
  | some s =>
    match step s with
    | .next t => .next (insts.set k t)
    | .fault r => .fault r
    | .refused r => .refused r

end Sys2Proof.Machine
end

