-- ==== Sys2Proof/Safety.lean ====
section
/-! DEFINITION. What holds of the block between events (R34), and what holds of every record it emits (R105, R109). -/

namespace Sys2Proof.Machine

/-- The state of a live block between events: R34 (a) to (f), with `buf` a byte sequence from offset 0 on (R21). -/
structure State.Framed (s : State) : Prop where
  dense : s.buf.dense
  /-- (a) -/
  fill_eq : s.fill.toNat = s.buf.length
  /-- (b) -/
  header : s.fault = false → s.expected = none → s.fill.toNat ≤ 23
  /-- (c) -/
  payload : s.fault = false → ∀ v, s.expected = some v →
    ∃ len, s.x 3 = .ok len ∧ v = messageTotal len ∧ len ≤ s.maxPayload ∧ 24 ≤ s.fill.toNat ∧ s.fill.toNat < v.toNat
  /-- (d) -/
  faulted : s.fault = true →
    s.fill = 24 ∧ s.expected = none ∧ s.faultCause = 4 ∧ s.x 3 = .ok s.faultInfo ∧ s.maxPayload < s.faultInfo
  /-- (e) -/
  clean : s.fault = false → s.faultCause = 0 ∧ s.faultInfo = 0
  /-- (f) -/
  counted : s.consumed = s.fill.toNat + recordBytes s.out

/-- The invariant of the machine: the storage keeps its canonical form, and once live, R34 holds. (Before the first RESET every
element is unspecified but `live = 0`, R35.) -/
structure State.Inv (s : State) : Prop where
  wf : s.buf.wf
  framed : s.live = true → s.Framed

/-- A record as the block makes them: the payload has the declared length, which the cap allows (R105, R84), and the class code is the
command's (R109). -/
structure Record.Sound (maxPayload : Word) (r : Record) : Prop where
  payload_length : r.payload.length = r.length.toNat
  within_cap : r.length ≤ maxPayload
  class_eq : r.cmdClass = (classify r.command).code

/-- Every record in the output trace is sound. -/
def State.RecordsSound (s : State) : Prop := ∀ r ∈ s.out, r.Sound s.maxPayload

end Sys2Proof.Machine
end

