-- ==== Sys2Proof/Certificates/Slice0/Obligations.lean ====
section
/-! DEFINITION. The statements for the provers. Nothing is proved here.

In every statement `s.input` (the events the host presents) is the model's own field (log entry 1), and `s.maxPayload` is the
spec's parameter MAX_PAYLOAD, held in State so that each statement is about every cap (log entry 3). -/

open Sys2Proof Sys2Proof.Machine

/-! ## Bytes, header and command map -/

/-- R11: LE32 is the sum of the four bytes weighted little-endian, equivalently their concatenation with the last byte on top;
BYTES32 lists the four byte slices, and the two are inverse. -/
def Obligations.Le32AndBytes32 : Prop :=
  (∀ (s : List Byte) (off : Nat), off + 4 ≤ s.length →
    ∃ b0 b1 b2 b3 w, s[off]? = some b0 ∧ s[off + 1]? = some b1 ∧ s[off + 2]? = some b2 ∧ s[off + 3]? = some b3 ∧
      le32 s off = some w ∧
      w.toNat = b0.toNat + 2 ^ 8 * b1.toNat + 2 ^ 16 * b2.toNat + 2 ^ 24 * b3.toNat ∧
      w = b3 ++ b2 ++ b1 ++ b0 ∧
      bytes32 w = [b0, b1, b2, b3]) ∧
  (∀ (v : Word) (t : List Byte),
    bytes32 v = [v.extractLsb' 0 8, v.extractLsb' 8 8, v.extractLsb' 16 8, v.extractLsb' 24 8] ∧
    le32 (bytes32 v ++ t) 0 = some v)

/-- R61, R62: over the 192-bit header word `H` of the first 24 bytes, the six fields are the bit slices of R62's table. -/
def Obligations.HeaderWordFields : Prop :=
  ∀ h : List Byte, 24 ≤ h.length →
    hdrDecode h = .ok
      { command := (headerWord h).extractLsb' 0 32, arg0 := (headerWord h).extractLsb' 32 32,
        arg1 := (headerWord h).extractLsb' 64 32, length := (headerWord h).extractLsb' 96 32,
        crc32 := (headerWord h).extractLsb' 128 32, magic := (headerWord h).extractLsb' 160 32 }

/-- R102: HDR_DECODE signals InsufficientData(24) on fewer than 24 bytes; on 24 or more it returns the six little-endian reads
at offsets 0, 4, 8, 12, 16, 20, whatever the bytes are, and no byte from index 24 on matters. On the framer's buffer the six results
are the views. -/
def Obligations.HdrDecodeReadsSixFields : Prop :=
  (∀ b : List Byte, b.length < 24 → hdrDecode b = .error (.insufficientData 24)) ∧
  (∀ b : List Byte, 24 ≤ b.length →
    ∃ c a0 a1 n k m, hdrDecode b = .ok { command := c, arg0 := a0, arg1 := a1, length := n, crc32 := k, magic := m } ∧
      le32 b 0 = some c ∧ le32 b 4 = some a0 ∧ le32 b 8 = some a1 ∧ le32 b 12 = some n ∧ le32 b 16 = some k ∧
      le32 b 20 = some m ∧ ∀ t, hdrDecode (b.take 24 ++ t) = hdrDecode b) ∧
  (∀ (s : State) (h : Header), s.Framed → hdrDecode s.buf.bytes = .ok h →
    s.x 0 = .ok h.command ∧ s.x 1 = .ok h.arg0 ∧ s.x 2 = .ok h.arg1 ∧ s.x 3 = .ok h.length ∧ s.x 4 = .ok h.crc32 ∧
    s.x 5 = .ok h.magic)

/-- R108 (its second direction is the spec's own derivation): header serialisation and header decoding are inverse. -/
def Obligations.HeaderRoundTrip : Prop :=
  (∀ h : Header, hdrDecode (encodeHeader h) = .ok h) ∧
  (∀ b : List Byte, b.length = 24 → ∃ h, hdrDecode b = .ok h ∧ encodeHeader h = b)

/-- R80: REQUIRED_LENGTH signals InsufficientData(24) on fewer than 24 bytes, even where the length bytes are there; otherwise it
is exactly `24 + LE32(p, 12)`, without wrapping, for every length, and only bytes 12 to 15 matter. -/
def Obligations.RequiredLengthIsExact : Prop :=
  (∀ p : List Byte, p.length < 24 → requiredLength p = .error (.insufficientData 24)) ∧
  (∀ p : List Byte, 24 ≤ p.length →
    ∃ len total, le32 p 12 = some len ∧ requiredLength p = .ok total ∧ total.toNat = 24 + len.toNat) ∧
  (∀ p q : List Byte, 24 ≤ p.length → 24 ≤ q.length → slice p 12 16 = slice q 12 16 →
    requiredLength p = requiredLength q)

/-- R103: CLASSIFY is an exact match on 32 bits against the six constants, with the class codes of the table; every other value
is UNRECOGNIZED with that value, code 0. -/
def Obligations.ClassifyIsExactMatch : Prop :=
  classify 0x434E5953 = .sync ∧ (classify 0x434E5953).code = 1 ∧
  classify 0x4E584E43 = .connect ∧ (classify 0x4E584E43).code = 2 ∧
  classify 0x4E45504F = .openMsg ∧ (classify 0x4E45504F).code = 3 ∧
  classify 0x59414B4F = .ready ∧ (classify 0x59414B4F).code = 4 ∧
  classify 0x45534C43 = .close ∧ (classify 0x45534C43).code = 5 ∧
  classify 0x45545257 = .write ∧ (classify 0x45545257).code = 6 ∧
  (∀ v : Word, v ≠ 0x434E5953 → v ≠ 0x4E584E43 → v ≠ 0x4E45504F → v ≠ 0x59414B4F → v ≠ 0x45534C43 → v ≠ 0x45545257 →
    classify v = .unrecognized v ∧ (classify v).code = 0)

/-- R109 (the spec's own derivation): in a decoded record the class is nonzero exactly for the six tags, `command` is the raw value in
every case, and code 7 never appears. -/
def Obligations.RecordClassMatchesCommand : Prop :=
  ∀ (b : List Byte) (r : Record), decodeRecord b = .ok r →
    le32 b 0 = some r.command ∧
    (r.cmdClass ≠ 0 ↔ r.command ∈ [0x434E5953, 0x4E584E43, 0x4E45504F, 0x59414B4F, 0x45534C43, 0x45545257]) ∧
    r.cmdClass = (classify r.command).code ∧ r.cmdClass ≠ 7

/-- DECODE's three cases (41_decoder.md section 2): the payload is exactly `b[24..24 + length]`, surplus bytes are ignored (the spec's
decision D19), and no cap is applied. -/
def Obligations.DecodeRecordCases : Prop :=
  (∀ b : List Byte, b.length < 24 → decodeRecord b = .error (.insufficientData 24)) ∧
  (∀ (b : List Byte) (h : Header), hdrDecode b = .ok h → b.length < 24 + h.length.toNat →
    ∃ total : Offset, total.toNat = 24 + h.length.toNat ∧ decodeRecord b = .error (.insufficientData total)) ∧
  (∀ (b : List Byte) (h : Header), hdrDecode b = .ok h → 24 + h.length.toNat ≤ b.length →
    decodeRecord b = .ok
      { cmdClass := (classify h.command).code, command := h.command, arg0 := h.arg0, arg1 := h.arg1,
        length := h.length, crc32 := h.crc32, magic := h.magic, payload := slice b 24 (24 + h.length.toNat) })

/-- 41_decoder.md section 2 (payload exposure): in the record of a message the payload is the message's own bytes from 24 on, unmodified,
exactly `length` of them, and the record serialises back to the message it came from. -/
def Obligations.RecordHoldsTheMessageBytes : Prop :=
  ∀ (b : List Byte) (r : Record), decodeRecord b = .ok r →
    r.payload.length = r.length.toNat ∧ r.payload = (b.drop 24).take r.length.toNat ∧
    r.wire = b.take (24 + r.length.toNat)

/-- 40_framer.md section 1 (the hand-off): on a complete message the header is its first 24 bytes, the payload is the rest, nothing is
lost between them, and the payload is the one in the record. -/
def Obligations.HandOffSplitsHeaderAndPayload : Prop :=
  ∀ (b : List Byte) (total : Offset), requiredLength b = .ok total → b.length = total.toNat →
    (onCompleteMessage b).header = b.take 24 ∧ (onCompleteMessage b).payload = b.drop 24 ∧
    (onCompleteMessage b).header ++ (onCompleteMessage b).payload = b ∧
    ∃ r, decodeRecord b = .ok r ∧ r.payload = (onCompleteMessage b).payload

/-- 41_decoder.md section 3 (MAGIC_MATCH): the predicate for hosts holds exactly when magic and command add up to 0xFFFFFFFF. -/
def Obligations.MagicMatchIsComplement : Prop :=
  ∀ h : Header, magicMatch h = true ↔ h.magic.toNat + h.command.toNat = 0xFFFFFFFF

/-- 41_decoder.md section 3 (no validation): whatever stands in `crc32` and `magic`, the message decodes, and to the same record but for
those two fields. -/
def Obligations.CheckFieldsDecideNothing : Prop :=
  ∀ (x p : List Byte) (k m k' m' : Word) (r : Record), x.length = 16 →
    decodeRecord (x ++ bytes32 k ++ bytes32 m ++ p) = .ok r →
    r.crc32 = k ∧ r.magic = m ∧
    decodeRecord (x ++ bytes32 k' ++ bytes32 m' ++ p) = .ok { r with crc32 := k', magic := m' }

/-! ## Decode and encode -/

/-- Every well-formed message, of every row and with every operand value, decodes from its own encoding, also with other bytes after
it. -/
def Obligations.DecodeOfEncode : Prop :=
  ∀ (i : Instr) (t : List Byte), i.wellFormed = true → decode (encode i ++ t) = .ok i

/-- What decodes is well-formed and is spelled by exactly the bytes that were read: each message has one encoding. -/
def Obligations.EncodeOfDecode : Prop :=
  ∀ (b : List Byte) (i : Instr), decode b = .ok i →
    i.wellFormed = true ∧ encode i = b.take (24 + i.operands.length.toNat)

/-- 30_encoding.md section 4 (no illegal encoding): with a whole message present every header decodes; the decoder rejects only by
InsufficientData, with the total it needs. -/
def Obligations.EveryMessageDecodes : Prop :=
  (∀ b : List Byte, b.length < 24 → decode b = .error (.insufficientData 24)) ∧
  (∀ b : List Byte, 24 ≤ b.length → ∃ len total, le32 b 12 = some len ∧ requiredLength b = .ok total ∧
    (24 + len.toNat ≤ b.length → ∃ i, decode b = .ok i ∧ le32 b 0 = some i.command) ∧
    (b.length < 24 + len.toNat → decode b = .error (.insufficientData total)))

/-- The decoder of messages and DECODE, two separate definitions, agree: DECODE gives the record of the decoded message, and the same
signals. -/
def Obligations.DecodeRecordIsRecordOfDecode : Prop :=
  ∀ b : List Byte, decodeRecord b = (decode b).map instrRecord

/-- Words written out from the spec's encoding: its SYNC example (R102, S1), its CONNECT example (R117) and its unrecognized
example (R122) decode to the messages they stand for. -/
def Obligations.ExampleWordsDecode : Prop :=
  decode [0x53, 0x59, 0x4E, 0x43, 0, 0, 0, 0, 1, 0, 0, 0, 0, 0, 0, 0, 0, 0, 0, 0, 0xAC, 0xA6, 0xB0, 0xBC]
    = .ok (.sync ⟨0, 1, 0, 0, 0xBCB0A6AC, []⟩) ∧
  decode [0x43, 0x4E, 0x58, 0x4E, 0, 0, 0, 1, 0, 0x10, 0, 0, 7, 0, 0, 0, 0, 0, 0, 0, 0xBC, 0xB1, 0xA7, 0xB1,
      0x68, 0x6F, 0x73, 0x74, 0x3A, 0x3A, 0]
    = .ok (.connect ⟨0x01000000, 0x00001000, 7, 0, 0xB1A7B1BC, [0x68, 0x6F, 0x73, 0x74, 0x3A, 0x3A, 0]⟩) ∧
  decode [0x41, 0x55, 0x54, 0x48, 1, 0, 0, 0, 0, 0, 0, 0, 2, 0, 0, 0, 0, 0, 0, 0, 0xBE, 0xAA, 0xAB, 0xB7, 0xAA, 0xBB]
    = .ok (.unrecognized 0x48545541 ⟨1, 0, 2, 0, 0xB7ABAABE, [0xAA, 0xBB]⟩)

/-! ## The buffer and its views -/

/-- R41, R43: a one-byte read gives the buffer's byte, a four-byte read the little-endian value, at any offset (no alignment), exactly
when the read lies below `fill`; otherwise it is not performed. -/
def Obligations.MemReadFollowsTheBuffer : Prop :=
  ∀ (s : State) (off : Nat), s.Framed →
    (off + 1 ≤ s.fill.toNat → memRead8 off s = s.buf.bytes[off]? ∧ ∃ b, memRead8 off s = some b) ∧
    (s.fill.toNat < off + 1 → memRead8 off s = none) ∧
    (off + 4 ≤ s.fill.toNat → memRead32 off s = le32 s.buf.bytes off ∧ ∃ w, memRead32 off s = some w) ∧
    (s.fill.toNat < off + 4 → memRead32 off s = none)

/-- R42: the append stores the byte at offset `fill`, advances `fill` by 1 and changes nothing else; as a byte sequence the buffer
gains one byte at its end. -/
def Obligations.AppendStoresAtFill : Prop :=
  ∀ (b : Byte) (s : State), s.Framed → s.fill.toNat < 24 + s.maxPayload.toNat →
    memAppend b s = .next { s with buf := s.buf.write s.fill.toNat b, fill := s.fill + 1, consumed := s.consumed + 1 } ∧
    (s.fill + 1).toNat = s.fill.toNat + 1 ∧
    Memory.bytes (s.buf.write s.fill.toNat b) = s.buf.bytes ++ [b] ∧
    Memory.read (s.buf.write s.fill.toNat b) s.fill.toNat = some b ∧
    ∀ off, off ≠ s.fill.toNat → Memory.read (s.buf.write s.fill.toNat b) off = s.buf.read off

/-- R22: a header-field view read while `fill < 24` is the signal InsufficientData(24), never a value; from 24 on view `i` is
LE32(buf, 4i). -/
def Obligations.HeaderViewsAliasTheBuffer : Prop :=
  (∀ (s : State) (i : Fin 6), s.fill.toNat < 24 → s.x i = .error (.insufficientData 24)) ∧
  (∀ (s : State) (i : Fin 6), s.Framed → 24 ≤ s.fill.toNat →
    ∃ w, s.x i = .ok w ∧ le32 s.buf.bytes (4 * i.val) = some w)

/-! ## The messages -/

/-- The six known messages (42_commands.md section 2) complete in every state whose cap allows their length: the record with their class
code and tag is emitted, the buffer emptied, and nothing else changes, whatever the operands are. -/
def Obligations.KnownMessagesEmitTheirRecord : Prop :=
  ∀ (m : Operands) (s : State), m.length ≤ s.maxPayload →
    exec (.sync m) s = .next { s with buf := [], fill := 0, expected := none, out := s.out ++
      [⟨1, 0x434E5953, m.arg0, m.arg1, m.length, m.crc32, m.magic, m.payload⟩] } ∧
    exec (.connect m) s = .next { s with buf := [], fill := 0, expected := none, out := s.out ++
      [⟨2, 0x4E584E43, m.arg0, m.arg1, m.length, m.crc32, m.magic, m.payload⟩] } ∧
    exec (.openMsg m) s = .next { s with buf := [], fill := 0, expected := none, out := s.out ++
      [⟨3, 0x4E45504F, m.arg0, m.arg1, m.length, m.crc32, m.magic, m.payload⟩] } ∧
    exec (.ready m) s = .next { s with buf := [], fill := 0, expected := none, out := s.out ++
      [⟨4, 0x59414B4F, m.arg0, m.arg1, m.length, m.crc32, m.magic, m.payload⟩] } ∧
    exec (.close m) s = .next { s with buf := [], fill := 0, expected := none, out := s.out ++
      [⟨5, 0x45534C43, m.arg0, m.arg1, m.length, m.crc32, m.magic, m.payload⟩] } ∧
    exec (.write m) s = .next { s with buf := [], fill := 0, expected := none, out := s.out ++
      [⟨6, 0x45545257, m.arg0, m.arg1, m.length, m.crc32, m.magic, m.payload⟩] }

/-- An unrecognized message (42_commands.md section 3) completes like any other: class code 0 and the raw command value, no fault. -/
def Obligations.UnrecognizedMessageEmitsItsRecord : Prop :=
  ∀ (c : Word) (m : Operands) (s : State), m.length ≤ s.maxPayload →
    exec (.unrecognized c m) s = .next { s with buf := [], fill := 0, expected := none, out := s.out ++
      [⟨0, c, m.arg0, m.arg1, m.length, m.crc32, m.magic, m.payload⟩] }

/-- The one exception of every message (42_commands.md section 1, 60_exceptions.md section 1; its effect is the spec's decision
D11): a length above the cap takes OversizeLength, cause 4, with the length recorded; no record, and nothing else changes. -/
def Obligations.OversizeMessageTakesTheFault : Prop :=
  ∀ (i : Instr) (s : State), s.maxPayload < i.operands.length →
    exec i s = .next { s with fault := true, faultCause := 4, faultInfo := i.operands.length }

/-- The frame of every message: the control elements, the ghost counter, the parameter and the host's events stay; earlier records
stay; the three fault elements change only with the fault; the buffer afterwards holds no byte at any offset, or, with the fault, every
byte it held. -/
def Obligations.MessageFrame : Prop :=
  ∀ (i : Instr) (s t : State), exec i s = .next t →
    t.live = s.live ∧ t.consumed = s.consumed ∧ t.maxPayload = s.maxPayload ∧ t.input = s.input ∧
    (i.operands.length ≤ s.maxPayload →
      t.fault = s.fault ∧ t.faultCause = s.faultCause ∧ t.faultInfo = s.faultInfo ∧
      t.out = s.out ++ [instrRecord i] ∧ ∀ off, t.buf.read off = none) ∧
    (s.maxPayload < i.operands.length →
      t.out = s.out ∧ t.fill = s.fill ∧ t.expected = s.expected ∧ ∀ off, t.buf.read off = s.buf.read off)

/-! ## PUSH_BYTE -/

/-- Refusal (00_scope.md section 4; the spec's decisions D11, D22): a byte is refused exactly when the block is not live or the fault is
latched, and a whole chunk then stays with the host. -/
def Obligations.BytesAreRefusedExactlyWhenDeadOrFaulted : Prop :=
  (∀ (b : Byte) (s : State), (∃ r, pushByte b s = .refused r) ↔ (s.live = false ∨ s.fault = true)) ∧
  (∀ (c : List Byte) (s : State), s.live = false ∨ s.fault = true → pushChunk c s = .next ⟨s, c⟩)

/-- 40_framer.md sections 2, 3 (HEADER to HEADER): a header byte before the last is stored at `fill`, and nothing else happens: no
length is read early, no record emitted. -/
def Obligations.EarlyHeaderByteIsStored : Prop :=
  ∀ (b : Byte) (s : State), s.Framed → s.live = true → s.fault = false → s.expected = none → s.fill.toNat < 23 →
    pushByte b s =
      .next { s with buf := s.buf.write s.fill.toNat b, fill := s.fill + 1, consumed := s.consumed + 1 }

/-- 40_framer.md sections 2, 3 (HEADER to PAYLOAD): header byte 23 of a message with a payload that the cap allows (the cap itself
included) sets the expected total, and emits nothing yet. -/
def Obligations.HeaderCompletionSetsExpected : Prop :=
  ∀ (b : Byte) (len : Word) (s : State), s.Framed → s.live = true → s.fault = false → s.fill = 23 →
    s.expected = none → le32 s.buf.bytes 12 = some len → 1 ≤ len.toNat → len ≤ s.maxPayload →
    ∃ total : Offset, total.toNat = 24 + len.toNat ∧
      pushByte b s = .next { s with buf := s.buf.write 23 b, fill := 24, expected := some total, consumed := s.consumed + 1 }

/-- 40_framer.md sections 2, 3, 7 (zero-length payload): header byte 23 of a message with length 0 completes it at once: the record has an
empty payload, and no 25th byte is waited for. (That it happens in this very step is the spec's own derivation from its PUSH_BYTE.) -/
def Obligations.HeaderOnlyMessageCompletesAtByte23 : Prop :=
  ∀ (b : Byte) (s : State), s.Framed → s.live = true → s.fault = false → s.fill = 23 → s.expected = none →
    le32 s.buf.bytes 12 = some 0 →
    ∃ r, decodeRecord (s.buf.bytes ++ [b]) = .ok r ∧ r.length = 0 ∧ r.payload = [] ∧
      pushByte b s =
        .next { s with buf := [], fill := 0, expected := none, consumed := s.consumed + 1, out := s.out ++ [r] }

/-- 40_framer.md sections 2, 3, 60_exceptions.md sections 1, 2 (the effect is the spec's decision D11): header byte 23 of a message
longer than the cap takes the fault, whatever the command: cause 4, the length recorded, the 24 header bytes kept, `expected` still NONE, no
record, earlier records untouched, and every later byte of the chunk is refused. -/
def Obligations.OversizeHeaderTakesTheFault : Prop :=
  ∀ (b : Byte) (len : Word) (s : State), s.Framed → s.live = true → s.fault = false → s.fill = 23 →
    s.expected = none → le32 s.buf.bytes 12 = some len → s.maxPayload < len →
    pushByte b s =
      .next { s with buf := s.buf.write 23 b, fill := 24, consumed := s.consumed + 1, fault := true, faultCause := 4,
                     faultInfo := len } ∧
    Memory.bytes (s.buf.write 23 b) = s.buf.bytes ++ [b] ∧
    ∀ bs, ∃ t, pushChunk (b :: bs) s = .next ⟨t, bs⟩ ∧ t.fault = true ∧ t.out = s.out

/-- 40_framer.md sections 2, 3 (PAYLOAD to PAYLOAD): a payload byte before the last is stored at `fill`, whatever its value, and nothing
else happens. -/
def Obligations.EarlyPayloadByteIsStored : Prop :=
  ∀ (b : Byte) (v : Offset) (s : State), s.Framed → s.live = true → s.fault = false → s.expected = some v →
    s.fill.toNat + 1 < v.toNat →
    pushByte b s =
      .next { s with buf := s.buf.write s.fill.toNat b, fill := s.fill + 1, consumed := s.consumed + 1 }

/-- 40_framer.md sections 2, 3 (PAYLOAD to HEADER): the last byte of a message emits, in that very step, the record that DECODE gives for
exactly the message's bytes, and empties the buffer. -/
def Obligations.LastByteEmitsTheRecord : Prop :=
  ∀ (b : Byte) (v : Offset) (s : State), s.Framed → s.live = true → s.fault = false → s.expected = some v →
    s.fill.toNat + 1 = v.toNat →
    ∃ r, decodeRecord (s.buf.bytes ++ [b]) = .ok r ∧ r.wire = s.buf.bytes ++ [b] ∧
      pushByte b s =
        .next { s with buf := [], fill := 0, expected := none, consumed := s.consumed + 1, out := s.out ++ [r] }

/-- 10_state.md section 5 (nothing is carried over): after a step that emits a record, the state differs from the one RESET leaves only in
the ghosts. -/
def Obligations.AfterAMessageAsAfterReset : Prop :=
  ∀ (b : Byte) (s t : State), s.Inv → pushByte b s = .next t → t.out ≠ s.out →
    t = { State.afterReset s.maxPayload s.input with consumed := t.consumed, out := t.out }

/-- The phase machine (40_framer.md section 3): an accepted byte makes one of the six transitions of its table, and no other. -/
def Obligations.PhaseTableIsExhaustive : Prop :=
  ∀ (b : Byte) (s t : State), s.Inv → pushByte b s = .next t →
    (s.phase = .header ∧ s.fill.toNat + 1 < 24 ∧ t.phase = .header ∧ t.fill.toNat = s.fill.toNat + 1 ∧ t.out = s.out) ∨
    (s.phase = .header ∧ s.fill.toNat + 1 = 24 ∧
      ∃ len, le32 (s.buf.bytes ++ [b]) 12 = some len ∧
        ((s.maxPayload < len ∧ t.phase = .fault ∧ t.fill = 24 ∧ t.out = s.out) ∨
         (len = 0 ∧ t.phase = .header ∧ t.fill = 0 ∧ ∃ r, t.out = s.out ++ [r]) ∨
         (1 ≤ len.toNat ∧ len ≤ s.maxPayload ∧ t.phase = .payload ∧ t.fill = 24 ∧
           t.expected = some (messageTotal len) ∧ t.out = s.out))) ∨
    (∃ v, s.phase = .payload ∧ s.expected = some v ∧
      ((s.fill.toNat + 1 < v.toNat ∧ t.phase = .payload ∧ t.fill.toNat = s.fill.toNat + 1 ∧ t.expected = some v ∧
          t.out = s.out) ∨
       (s.fill.toNat + 1 = v.toNat ∧ t.phase = .header ∧ t.fill = 0 ∧ ∃ r, t.out = s.out ++ [r])))

/-- With MAX_PAYLOAD = 2^32 - 1 ("no cap") the fault cannot occur (40_framer.md section 2, 60_exceptions.md section 1). -/
def Obligations.NoCapMeansNoFault : Prop :=
  ∀ s t : State, s.maxPayload = 0xFFFFFFFF → s.fault = false → step s = .next t → t.fault = false

/-! ## Reset and the fault's return -/

/-- 10_state.md section 7, 40_framer.md section 5 (the values are the spec's decision D14): RESET is accepted in every state, before the
first RESET and in phase FAULT too, and leaves exactly these values; the parameter is unaffected. -/
def Obligations.ResetGivesTheResetValues : Prop :=
  ∀ s : State,
    takeEvent .reset s =
      .next { live := true, buf := [], fill := 0, expected := none, fault := false, faultCause := 0, faultInfo := 0,
              consumed := 0, out := [], maxPayload := s.maxPayload, input := s.input } ∧
    (∀ i, (State.afterReset s.maxPayload s.input).x i = .error (.insufficientData 24)) ∧
    (State.afterReset s.maxPayload s.input).needTotal = 24 ∧ (State.afterReset s.maxPayload s.input).haveBytes = 0 ∧
    (State.afterReset s.maxPayload s.input).phase = .header

/-- 60_exceptions.md section 2, 10_state.md section 4 (the spec's decisions D12, D22): out of the latched fault, and out of the condition
before the first RESET, there is no way but RESET; any other step that goes on changes no element of the block. -/
def Obligations.OnlyResetRevivesTheBlock : Prop :=
  ∀ s t : State, s.live = false ∨ s.fault = true → step s = .next t →
    (∃ es, s.input = .reset :: es ∧ t = State.afterReset s.maxPayload es) ∨ (t = { s with input := t.input })

/-! ## Status -/

/-- 40_framer.md section 6, 10_state.md section 4: the status query by phase, with the status outputs beside it; between events an
un-faulted block always answers InsufficientData, and at least one byte is missing. (The status outputs' values, `need_total` = 0 in
FAULT among them, are the spec's decisions D6 and D9; that at least one byte is missing is its own derivation.) -/
def Obligations.StatusQueryByPhase : Prop :=
  ∀ s : State, s.haveBytes = s.fill ∧
    (s.fault = true → s.needTotal = 0 ∧ s.status = .fault s.faultCause s.faultInfo) ∧
    (s.fault = false → s.expected = none → s.needTotal = 24 ∧ s.status = .insufficientData 24) ∧
    (∀ v, s.fault = false → s.expected = some v → s.needTotal = v ∧ s.status = .insufficientData v) ∧
    (s.Inv → s.live = true → s.fault = false →
      s.status = .insufficientData s.needTotal ∧ s.haveBytes.toNat < s.needTotal.toNat)

/-- 10_state.md sections 1, 3, 4 (the spec's own derivations from R34): the buffer never outgrows its capacity, `fill` stays below it
between events unless faulted, and `fault_cause` is 0 or 4, the code of OversizeLength. -/
def Obligations.BufferBoundAndCauseCodes : Prop :=
  ∀ s : State, s.Inv → s.live = true →
    s.buf.bytes.length ≤ 24 + s.maxPayload.toNat ∧
    (s.fault = false → s.fill.toNat < 24 + s.maxPayload.toNat ∧ s.faultCause = Condition.none.code) ∧
    (s.fault = true → s.fill = 24 ∧ s.faultCause = Condition.oversizeLength.code ∧ s.maxPayload < s.faultInfo)

/-! ## The step -/

/-- The step takes the oldest event the host presents: RESET, one byte, the next byte of a chunk (the rest of the chunk staying first in
line), or an empty chunk, which does nothing; with none presented it waits. (The event list is the model's choice, log entries 1 and 2.) -/
def Obligations.StepTakesTheOldestEvent : Prop :=
  ∀ (s : State) (es : List Event),
    (s.input = [] → step s = .next s) ∧
    (s.input = .reset :: es → step s = .next (State.afterReset s.maxPayload es)) ∧
    (∀ b, s.input = .pushByte b :: es → step s = pushByte b { s with input := es }) ∧
    (s.input = .push [] :: es → step s = .next { s with input := es }) ∧
    (∀ b, s.input = .push [b] :: es → step s = pushByte b { s with input := es }) ∧
    (∀ b c cs, s.input = .push (b :: c :: cs) :: es → step s = pushByte b { s with input := .push (c :: cs) :: es })

/-- A step runs the decoded message: when the byte presented is the last of a message (or, above the cap, the last of its header), the
step is exec of that message in the state in which the byte has been appended and counted. (The event list is the model's choice, log
entry 1.) -/
def Obligations.StepRunsTheDecodedMessage : Prop :=
  ∀ (b : Byte) (es : List Event) (i : Instr) (s : State), s.Inv → s.live = true → s.fault = false →
    s.input = .pushByte b :: es → i.wellFormed = true →
    (i.operands.length ≤ s.maxPayload ∧ encode i = s.buf.bytes ++ [b] ∨
     s.maxPayload < i.operands.length ∧ (encode i).take 24 = s.buf.bytes ++ [b]) →
    step s = exec i { s with buf := s.buf.write s.fill.toNat b, fill := s.fill + 1, consumed := s.consumed + 1, input := es }

/-- R34 as an invariant: from every state that satisfies it, with any cap and any events, every step gives a state that satisfies it. -/
def Obligations.StepKeepsTheInvariant : Prop :=
  ∀ s t : State, s.Inv → step s = .next t → t.Inv

/-- The state that RESET leaves satisfies the invariant, for every cap; so does `State.reset`. -/
def Obligations.ResetSatisfiesTheInvariant : Prop :=
  (∀ (cap : Word) (es : List Event), (State.afterReset cap es).Inv) ∧ State.reset.Inv

/-- Every record in the output is sound, and stays so: its payload has the declared length, the cap allows it, and its class is its
command's. -/
def Obligations.StepKeepsRecordsSound : Prop :=
  ∀ s t : State, s.Inv → s.RecordsSound → step s = .next t → t.RecordsSound

/-- From every state of the invariant the model stops at no fault of its own; a step that does not go on is a refused byte. -/
def Obligations.InvariantStatesNeverStop : Prop :=
  ∀ s : State, s.Inv → (∃ t, step s = .next t) ∨
    ((s.live = false ∨ s.fault = true) ∧ (step s = .refused .notLive ∨ step s = .refused .faultLatched))

/-- Whole-machine rule (10_state.md section 4, 20_memory.md section 6, 60_exceptions.md section 2): no step writes MAX_PAYLOAD or clears
`live`; only RESET takes records away; otherwise a step adds at most one record at the end, and none in the step that raises the fault. -/
def Obligations.RecordsAreOnlyAppended : Prop :=
  ∀ s t : State, step s = .next t →
    t.maxPayload = s.maxPayload ∧ (s.live = true → t.live = true) ∧
    ((∃ es, s.input = .reset :: es) ∨
      (∃ rs : List Record, rs.length ≤ 1 ∧ t.out = s.out ++ rs ∧ (s.fault = false → t.fault = true → rs = [])))

/-! ## Chunks and streams -/

/-- 40_framer.md sections 4, 7: any two cuttings of the same bytes into chunks, pushed in order from the same state, give the same final
state and the same output (the spec's own derivation from its definition of PUSH), and the same refused bytes (60_exceptions.md
section 2; that refused bytes stay with the host as a list is the model's reading, log entry 4). -/
def Obligations.FragmentationIndependence : Prop :=
  ∀ (cs ds : List (List Byte)) (s : State), cs.flatten = ds.flatten → pushChunks cs s = pushChunks ds s

/-- PUSH(c) presented as one event (40_framer.md section 4) runs as its bytes: as many steps as the chunk has bytes give the state that
delivering the chunk gives, with the host's later events still to come. (The event list is the model's choice, log entry 1.) -/
def Obligations.ChunkEventRunsByteByByte : Prop :=
  ∀ (c : List Byte) (es : List Event) (s t : State), c ≠ [] → s.input = .push c :: es →
    pushChunk c { s with input := es } = .next ⟨t, []⟩ →
    Host.Core.run core c.length s = .next t

/-- 40_framer.md section 4: PUSH_BULK and PUSH agree from every state of the invariant: the same records, the same final state, the same
bytes left with the host, with and without a fault. (The spec derives the equality of the records and, without a fault, of `buf` and
`expected`. The rest of the final state, PUSH_BULK's `expected` and `consumed` on a fault and the chunk that a refusing block leaves
whole, is the model's choice, log entry 14, DEDUCED.) -/
def Obligations.BulkEqualsByteSerial : Prop :=
  ∀ (c : List Byte) (s : State), s.Inv → s.live = true → pushChunk c s = .next (pushBulk c s)

/-- 20_memory.md section 6, 40_framer.md section 6 (adjacency): the bytes delivered are, in order and without a gap, the bytes of the
records emitted, then the bytes still in the buffer, then the bytes refused. No byte is lost, repeated or mixed between messages. -/
def Obligations.RecordsCoverTheStream : Prop :=
  ∀ (c : List Byte) (s : State), s.Inv → s.live = true →
    ∃ (t : State) (left : List Byte) (rs : List Record),
      pushChunk c s = .next ⟨t, left⟩ ∧ t.out = s.out ++ rs ∧
      s.buf.bytes ++ c = (rs.map Record.wire).flatten ++ t.buf.bytes ++ left ∧
      (left ≠ [] → t.fault = true) ∧ t.consumed + left.length = s.consumed + c.length

/-- Every stream of whole messages within the cap, delivered at a message boundary, is delivered to the sink message by message, in
order, and leaves the block at a message boundary: nothing is refused, and nothing else changes. -/
def Obligations.WellFormedStreamIsDelivered : Prop :=
  ∀ (is : List Instr) (s : State), s.Inv → s.live = true → s.fault = false → s.fill = 0 →
    (∀ i ∈ is, i.wellFormed = true ∧ i.operands.length ≤ s.maxPayload) →
    pushChunk (is.map encode).flatten s =
      .next ⟨{ s with out := s.out ++ is.map instrRecord,
                      consumed := s.consumed + ((is.map encode).flatten).length }, []⟩

/-- 10_state.md section 5, 00_scope.md section 2 (each message is decoded independently): what the block does with bytes does not depend on
the records emitted or the bytes counted before. -/
def Obligations.HistoryDecidesNothing : Prop :=
  ∀ (c : List Byte) (s t : State) (left : List Byte) (o : List Record) (n : Nat),
    pushChunk c s = .next ⟨t, left⟩ →
    ∃ rs k, t.out = s.out ++ rs ∧ t.consumed = s.consumed + k ∧
      pushChunk c { s with out := o, consumed := n } = .next ⟨{ t with out := o ++ rs, consumed := n + k }, left⟩

/-- 60_exceptions.md section 3: a step of one instance leaves every other instance as it was, and is that instance's own step. -/
def Obligations.InstancesAreIndependent : Prop :=
  ∀ (k : Nat) (insts after : List State), stepInstance k insts = .next after →
    (∀ j, j ≠ k → after[j]? = insts[j]?) ∧ after.length = insts.length ∧
    (∀ s, insts[k]? = some s → ∃ t, step s = .next t ∧ after[k]? = some t)

/-- A word of the opcode table, placed (log entry 9), is fetched and run by the very next step: the placed state satisfies the
invariant, and its step is exec of the message the decoder reads from the word, for a length above the cap too. -/
def Obligations.PlacedWordRunsNext : Prop :=
  ∀ (s : State) (nbits w : Nat) (i : Instr), decodeTableWord nbits w = some i →
    (s.withFetchWord nbits w).Inv ∧
    ∃ t, step (s.withFetchWord nbits w) = exec i t ∧ t.out = s.out ∧ t.maxPayload = s.maxPayload ∧ t.input = s.input ∧
      t.live = true ∧ t.fault = false
end

