-- ==== Sys2Proof/Laws/Bytes.lean ====
section
/-! SUPPORT. Small lemmas about the byte and word primitives, slices and the length of a message. -/

namespace Sys2Proof

theorem le4_toNat (b0 b1 b2 b3 : Byte) :
    (le4 b0 b1 b2 b3).toNat = b0.toNat + 2 ^ 8 * b1.toNat + 2 ^ 16 * b2.toNat + 2 ^ 24 * b3.toNat := by
  have h0 := b0.isLt; have h1 := b1.isLt; have h2 := b2.isLt; have h3 := b3.isLt
  rw [le4, BitVec.toNat_ofNat, Nat.mod_eq_of_lt (by omega)]

theorem byte_toNat (v : Word) (k : Nat) : (v.extractLsb' k 8).toNat = v.toNat / 2 ^ k % 256 := by
  simp [BitVec.extractLsb'_toNat, Nat.shiftRight_eq_div_pow]

/-- Four byte slices of a word make the word again (R11). -/
theorem le4_slices (v : Word) :
    le4 (v.extractLsb' 0 8) (v.extractLsb' 8 8) (v.extractLsb' 16 8) (v.extractLsb' 24 8) = v := by
  apply BitVec.eq_of_toNat_eq
  have := v.isLt
  simp only [le4_toNat, byte_toNat]
  omega

/-- The byte slices of four assembled bytes are the bytes (R11). -/
theorem bytes32_le4 (b0 b1 b2 b3 : Byte) : bytes32 (le4 b0 b1 b2 b3) = [b0, b1, b2, b3] := by
  have h0 := b0.isLt; have h1 := b1.isLt; have h2 := b2.isLt; have h3 := b3.isLt
  simp only [bytes32, List.cons.injEq, and_true]
  refine ⟨?_, ?_, ?_, ?_⟩ <;> apply BitVec.eq_of_toNat_eq <;> simp only [byte_toNat, le4_toNat] <;> omega

@[simp] theorem bytes32_length (v : Word) : (bytes32 v).length = 4 := rfl

@[simp] theorem encodeHeader_length (h : Header) : (encodeHeader h).length = 24 := rfl

@[simp] theorem zext33_toNat (v : Word) : (zext33 v).toNat = v.toNat := by
  have := v.isLt
  simp only [zext33, BitVec.toNat_setWidth]
  omega

/-- `24 + length` is exact (R101). -/
@[simp] theorem messageTotal_toNat (len : Word) : (messageTotal len).toNat = 24 + len.toNat := by
  have := len.isLt
  have h24 : (24 : Offset).toNat = 24 := rfl
  rw [messageTotal, BitVec.toNat_add, zext33_toNat, h24]
  omega

theorem slice_length (s : List Byte) (a b : Nat) : (slice s a b).length = min (b - a) (s.length - a) := by
  simp [slice]

/-- A four-byte read succeeds exactly inside the sequence, and its value is fixed by the four bytes. -/
theorem le32_eq_of_drop {s : List Byte} {off : Nat} {b0 b1 b2 b3 : Byte} {t : List Byte}
    (h : s.drop off = b0 :: b1 :: b2 :: b3 :: t) : le32 s off = some (le4 b0 b1 b2 b3) := by
  simp [le32, h]

/-- Where there are four bytes, they can be named. -/
theorem exists_drop_eq {s : List Byte} {off : Nat} (h : off + 4 ≤ s.length) :
    ∃ b0 b1 b2 b3, s.drop off = b0 :: b1 :: b2 :: b3 :: s.drop (off + 4) := by
  refine ⟨s[off], s[off + 1], s[off + 2], s[off + 3], ?_⟩
  rw [List.drop_eq_getElem_cons (by omega), List.drop_eq_getElem_cons (i := off + 1) (by omega),
    List.drop_eq_getElem_cons (i := off + 1 + 1) (by omega), List.drop_eq_getElem_cons (i := off + 1 + 1 + 1) (by omega)]

theorem le32_isSome {s : List Byte} {off : Nat} (h : off + 4 ≤ s.length) : ∃ w, le32 s off = some w := by
  obtain ⟨b0, b1, b2, b3, h'⟩ := exists_drop_eq h
  exact ⟨_, le32_eq_of_drop h'⟩

theorem le32_isNone {s : List Byte} {off : Nat} (h : s.length < off + 4) : le32 s off = none := by
  unfold le32
  split
  · rename_i heq
    have := congrArg List.length heq
    simp at this
    omega
  · rfl

/-- A read looks at its own four bytes only: what stands after them is immaterial. -/
theorem le32_append {s : List Byte} {off : Nat} (t : List Byte) (h : off + 4 ≤ s.length) :
    le32 (s ++ t) off = le32 s off := by
  obtain ⟨b0, b1, b2, b3, h'⟩ := exists_drop_eq h
  rw [le32_eq_of_drop h', le32_eq_of_drop (t := s.drop (off + 4) ++ t)]
  rw [List.drop_append_of_le_length (by omega), h']
  rfl

theorem le32_take {s : List Byte} {off n : Nat} (h : off + 4 ≤ n) (hn : n ≤ s.length) :
    le32 (s.take n) off = le32 s off := by
  conv_rhs => rw [← List.take_append_drop n s]
  rw [le32_append _ (by simp; omega)]

theorem le32_append_right (s t : List Byte) (off : Nat) : le32 (s ++ t) (s.length + off) = le32 t off := by
  have : (s ++ t).drop (s.length + off) = t.drop off := by
    rw [← List.drop_drop, List.drop_left]
  simp only [le32, this]

theorem le32_bytes32 (v : Word) (t : List Byte) : le32 (bytes32 v ++ t) 0 = some v := by
  rw [le32_eq_of_drop (t := t) rfl, le4_slices]

theorem le32_bytes32_at (x : List Byte) (v : Word) (t : List Byte) :
    le32 (x ++ (bytes32 v ++ t)) x.length = some v := by
  have h := le32_append_right x (bytes32 v ++ t) 0
  rwa [Nat.add_zero, le32_bytes32] at h

/-- HDR_DECODE from its six reads. -/
theorem hdrDecode_of_reads {b : List Byte} {h : Header} (h0 : le32 b 0 = some h.command) (h1 : le32 b 4 = some h.arg0)
    (h2 : le32 b 8 = some h.arg1) (h3 : le32 b 12 = some h.length) (h4 : le32 b 16 = some h.crc32)
    (h5 : le32 b 20 = some h.magic) : hdrDecode b = .ok h := by
  simp [hdrDecode, h0, h1, h2, h3, h4, h5]

/-- What HDR_DECODE returned are its six reads, and there were 24 bytes. -/
theorem hdrDecode_ok {b : List Byte} {h : Header} (hd : hdrDecode b = .ok h) :
    24 ≤ b.length ∧ le32 b 0 = some h.command ∧ le32 b 4 = some h.arg0 ∧ le32 b 8 = some h.arg1 ∧
      le32 b 12 = some h.length ∧ le32 b 16 = some h.crc32 ∧ le32 b 20 = some h.magic := by
  have hl : 24 ≤ b.length := by
    by_contra hc
    have : le32 b 20 = none := le32_isNone (by omega)
    simp [hdrDecode, this] at hd
  unfold hdrDecode at hd
  split at hd
  · cases hd
    exact ⟨hl, ‹_›, ‹_›, ‹_›, ‹_›, ‹_›, ‹_›⟩
  · cases hd

theorem hdrDecode_isOk {b : List Byte} (h : 24 ≤ b.length) : ∃ hd, hdrDecode b = .ok hd := by
  obtain ⟨c, h0⟩ := le32_isSome (s := b) (off := 0) (by omega)
  obtain ⟨a0, h1⟩ := le32_isSome (s := b) (off := 4) (by omega)
  obtain ⟨a1, h2⟩ := le32_isSome (s := b) (off := 8) (by omega)
  obtain ⟨n, h3⟩ := le32_isSome (s := b) (off := 12) (by omega)
  obtain ⟨k, h4⟩ := le32_isSome (s := b) (off := 16) (by omega)
  obtain ⟨m, h5⟩ := le32_isSome (s := b) (off := 20) (by omega)
  exact ⟨⟨c, a0, a1, n, k, m⟩, hdrDecode_of_reads h0 h1 h2 h3 h4 h5⟩

theorem hdrDecode_short {b : List Byte} (h : b.length < 24) : hdrDecode b = .error (.insufficientData 24) := by
  have : le32 b 20 = none := le32_isNone (by omega)
  simp [hdrDecode, this]

/-- Bytes after the first 24 are immaterial to the header (R102). -/
theorem hdrDecode_append {b : List Byte} (t : List Byte) (h : 24 ≤ b.length) : hdrDecode (b ++ t) = hdrDecode b := by
  unfold hdrDecode
  rw [le32_append t (by omega), le32_append t (by omega), le32_append t (by omega), le32_append t (by omega),
    le32_append t (by omega), le32_append t (by omega)]

/-- REQUIRED_LENGTH of a prefix whose header decodes. -/
theorem requiredLength_of_hdrDecode {b : List Byte} {h : Header} (hd : hdrDecode b = .ok h) :
    requiredLength b = .ok (messageTotal h.length) := by
  obtain ⟨hl, -, -, -, h3, -, -⟩ := hdrDecode_ok hd
  simp [requiredLength, show ¬ b.length < 24 by omega, h3]

theorem requiredLength_short {b : List Byte} (h : b.length < 24) :
    requiredLength b = .error (.insufficientData 24) := by
  simp [requiredLength, h]

/-! ## The command map -/

theorem classify_known : classify cmdSync = .sync ∧ classify cmdConnect = .connect ∧ classify cmdOpen = .openMsg ∧
    classify cmdReady = .ready ∧ classify cmdClose = .close ∧ classify cmdWrite = .write := by decide

theorem classify_other {v : Word} (h : v ∉ knownCommands) : classify v = .unrecognized v := by
  simp [knownCommands] at h
  simp [classify, h]

/-- Inversion of CLASSIFY: each known class has one command value, and "unrecognized" carries the value itself. -/
theorem classify_cases (v : Word) :
    (v = cmdSync ∧ classify v = .sync) ∨ (v = cmdConnect ∧ classify v = .connect) ∨
    (v = cmdOpen ∧ classify v = .openMsg) ∨ (v = cmdReady ∧ classify v = .ready) ∨
    (v = cmdClose ∧ classify v = .close) ∨ (v = cmdWrite ∧ classify v = .write) ∨
    (v ∉ knownCommands ∧ classify v = .unrecognized v) := by
  by_cases h : v ∈ knownCommands
  · obtain ⟨h1, h2, h3, h4, h5, h6⟩ := classify_known
    simp only [knownCommands, List.mem_cons, List.not_mem_nil, or_false] at h
    rcases h with h | h | h | h | h | h <;> subst h <;> simp [*]
  · exact .inr (.inr (.inr (.inr (.inr (.inr ⟨h, classify_other h⟩)))))

/-! ## The words of the opcode table -/

@[simp] theorem bytesLE_length (n w : Nat) : (bytesLE n w).length = n := by
  induction n generalizing w with
  | zero => rfl
  | succ n ih => simp [bytesLE, ih]

theorem bytesLE_drop (k n w : Nat) : (bytesLE (k + n) w).drop k = bytesLE n (w / 256 ^ k) := by
  induction k generalizing w with
  | zero => simp
  | succ k ih =>
    rw [show k + 1 + n = (k + n) + 1 by omega, bytesLE, List.drop_succ_cons, ih, Nat.div_div_eq_div_mul, Nat.pow_succ,
      Nat.mul_comm]

theorem le4_ofNat (w : Nat) :
    le4 (BitVec.ofNat 8 w) (BitVec.ofNat 8 (w / 256)) (BitVec.ofNat 8 (w / 256 / 256))
      (BitVec.ofNat 8 (w / 256 / 256 / 256)) = BitVec.ofNat 32 w := by
  apply BitVec.eq_of_toNat_eq
  simp only [le4_toNat, BitVec.toNat_ofNat]
  omega

/-- A table word's length field stands at bits 127 to 96 (R62). -/
theorem le32_tableBytes (nbits w : Nat) :
    le32 (tableBytes nbits w) 12 = some (BitVec.ofNat 32 (w % 2 ^ nbits / 2 ^ 96 % 2 ^ 32)) := by
  have h : (bytesLE 24 (w % 2 ^ nbits)).drop 12 = bytesLE 12 (w % 2 ^ nbits / 256 ^ 12) := bytesLE_drop 12 12 _
  rw [tableBytes, le32_append _ (by rw [bytesLE_length]; decide), le32_eq_of_drop h, le4_ofNat]
  congr 1
  apply BitVec.eq_of_toNat_eq
  simp only [BitVec.toNat_ofNat]
  norm_num

/-- A table word is laid out as one whole message (R60). -/
theorem tableBytes_length (nbits w : Nat) : (tableBytes nbits w).length = 24 + w % 2 ^ nbits / 2 ^ 96 % 2 ^ 32 := by
  simp only [tableBytes, List.length_append, bytesLE_length]

/-! ## Messages -/

/-- The message built from a header keeps its command and its operands. -/
theorem instrOf_command (h : Header) (p : List Byte) : (instrOf h p).command = h.command := by
  rcases classify_cases h.command with ⟨hc, hk⟩ | ⟨hc, hk⟩ | ⟨hc, hk⟩ | ⟨hc, hk⟩ | ⟨hc, hk⟩ | ⟨hc, hk⟩ | ⟨-, hk⟩
  case inr.inr.inr.inr.inr.inr => simp only [instrOf, hk, Instr.command]
  all_goals simp only [instrOf, hk, Instr.command]; exact hc.symm

@[simp] theorem instrOf_operands (h : Header) (p : List Byte) : (instrOf h p).operands = h.operands p := by
  unfold instrOf
  split <;> rfl

/-- A well-formed message is the one its own header and payload select. -/
theorem instrOf_header {i : Instr} (hw : i.wellFormed = true) : instrOf i.header i.operands.payload = i := by
  obtain ⟨h1, h2, h3, h4, h5, h6⟩ := classify_known
  cases i with
  | unrecognized c m =>
    simp [Instr.wellFormed] at hw
    simp [instrOf, Instr.header, Instr.command, Instr.operands, classify_other hw.1, Header.operands]
  | _ m => simp [instrOf, Instr.header, Instr.command, Instr.operands, Header.operands, h1, h2, h3, h4, h5, h6]

/-- Well-formed messages have the declared payload length. -/
theorem wellFormed_payload {i : Instr} (hw : i.wellFormed = true) :
    i.operands.payload.length = i.operands.length.toNat := by
  cases i <;> simp_all [Instr.wellFormed, Operands.wellFormed, Instr.operands]

/-- What the decoder answered: there was a header with the whole payload behind it. -/
theorem decode_ok {b : List Byte} {i : Instr} (h : decode b = .ok i) :
    ∃ hd, hdrDecode b = .ok hd ∧ 24 + hd.length.toNat ≤ b.length ∧
      i = instrOf hd (slice b 24 (24 + hd.length.toNat)) := by
  unfold decode at h
  split at h
  · cases h
  · rename_i hd heq
    split at h
    · cases h
    · rename_i hlt
      cases h
      simp only [messageTotal_toNat] at hlt ⊢
      exact ⟨hd, heq, by omega, rfl⟩

theorem decode_of_hdr {b : List Byte} {hd : Header} (h : hdrDecode b = .ok hd) (hl : 24 + hd.length.toNat ≤ b.length) :
    decode b = .ok (instrOf hd (slice b 24 (24 + hd.length.toNat))) := by
  simp [decode, h, show ¬ b.length < 24 + hd.length.toNat by omega]

end Sys2Proof
end

