-- ==== Sys2Proof/Laws/Memory.lean ====
section
/-! SUPPORT. The laws of the buffer's storage: a read after a write, what a write leaves alone, that every operation keeps the canonical
form, and that storage filled from offset 0 on is a byte sequence. -/

namespace Sys2Proof.Machine

@[simp] theorem Memory.read_nil (off : Nat) : Memory.read [] off = none := rfl

/-- A read after a write: the byte written, and every other offset as before. -/
theorem Memory.read_write (m : Memory) (a off : Nat) (b : Byte) :
    Memory.read (Memory.write m a b) off = if off = a then some b else Memory.read m off := by
  induction m with
  | nil => by_cases h : a = off <;> simp [Memory.write, Memory.read, h, eq_comm]
  | cons hd m ih =>
    obtain ⟨x, c⟩ := hd
    simp only [Memory.write]
    split
    · by_cases h : off = a
      · simp [Memory.read, h]
      · simp [Memory.read, h, Ne.symm h]
    · split
      · by_cases h : off = a <;> simp_all [Memory.read, eq_comm]
      · simp only [Memory.read, ih]
        by_cases h : x = off
        · have : off ≠ a := by omega
          simp [h, this]
        · simp [h]

theorem Memory.write_mem {m : Memory} {a : Nat} {b : Byte} {x : Host.Cell} (h : x ∈ Memory.write m a b) :
    x.1 = a ∨ x ∈ m := by
  induction m with
  | nil => simp [Memory.write] at h; simp [h]
  | cons hd m ih =>
    obtain ⟨y, c⟩ := hd
    simp only [Memory.write] at h
    split at h
    · simp only [List.mem_cons] at h ⊢
      rcases h with h | h | h <;> simp [h]
    · split at h
      · simp only [List.mem_cons] at h ⊢
        rcases h with h | h <;> simp [h]
      · simp only [List.mem_cons] at h ⊢
        rcases h with h | h
        · simp [h]
        · rcases ih h with h | h <;> simp [h]

/-- A write keeps the canonical form. -/
theorem Memory.write_wf {m : Memory} (a : Nat) (b : Byte) (h : m.wf) : (Memory.write m a b).wf := by
  induction m with
  | nil => simp [Memory.write, Memory.wf]
  | cons hd m ih =>
    obtain ⟨y, c⟩ := hd
    simp only [Memory.wf, List.pairwise_cons] at h ih ⊢
    simp only [Memory.write]
    split
    · rename_i hlt
      simp only [List.pairwise_cons, List.mem_cons]
      refine ⟨?_, h.1, h.2⟩
      rintro x (rfl | hx)
      · exact hlt
      · exact lt_trans hlt (h.1 x hx)
    · split
      · rename_i heq
        simp only [List.pairwise_cons]
        exact ⟨fun x hx => by simpa [heq] using h.1 x hx, h.2⟩
      · simp only [List.pairwise_cons]
        refine ⟨fun x hx => ?_, ih h.2⟩
        rcases Memory.write_mem hx with hx | hx
        · rw [hx]; omega
        · exact h.1 x hx

/-- The empty storage is canonical (reset, completion). -/
theorem Memory.nil_wf : Memory.wf [] := List.Pairwise.nil

@[simp] theorem Memory.bytes_nil : Memory.bytes [] = [] := rfl
@[simp] theorem Memory.bytes_length (m : Memory) : m.bytes.length = m.length := by simp [Memory.bytes]

theorem Memory.bytes_ofBytesFrom (a : Nat) (bs : List Byte) : (Memory.ofBytesFrom a bs).bytes = bs := by
  induction bs generalizing a with
  | nil => rfl
  | cons b bs ih => simpa [Memory.ofBytesFrom, Memory.bytes] using ih (a + 1)

@[simp] theorem Memory.bytes_ofBytes (bs : List Byte) : (Memory.ofBytes bs).bytes = bs := Memory.bytes_ofBytesFrom 0 bs

@[simp] theorem Memory.length_ofBytes (bs : List Byte) : (Memory.ofBytes bs).length = bs.length := by
  rw [← Memory.bytes_length, Memory.bytes_ofBytes]

theorem Memory.dense_ofBytes (bs : List Byte) : (Memory.ofBytes bs).dense := by simp [Memory.dense]

theorem Memory.dense_nil : Memory.dense [] := rfl

theorem Memory.mem_ofBytesFrom {a : Nat} {bs : List Byte} {x : Host.Cell} (h : x ∈ Memory.ofBytesFrom a bs) : a ≤ x.1 := by
  induction bs generalizing a with
  | nil => simp [Memory.ofBytesFrom] at h
  | cons b bs ih =>
    simp only [Memory.ofBytesFrom, List.mem_cons] at h
    rcases h with h | h
    · simp [h]
    · have := ih h; omega

theorem Memory.wf_ofBytesFrom (a : Nat) (bs : List Byte) : (Memory.ofBytesFrom a bs).wf := by
  induction bs generalizing a with
  | nil => exact List.Pairwise.nil
  | cons b bs ih =>
    simp only [Memory.wf, Memory.ofBytesFrom, List.pairwise_cons]
    exact ⟨fun x hx => by have := Memory.mem_ofBytesFrom hx; omega, ih (a + 1)⟩

/-- A byte sequence is in canonical form. -/
theorem Memory.wf_of_dense {m : Memory} (h : m.dense) : m.wf := by
  rw [h]; exact Memory.wf_ofBytesFrom 0 _

theorem Memory.write_ofBytesFrom (a : Nat) (bs : List Byte) (b : Byte) :
    Memory.write (Memory.ofBytesFrom a bs) (a + bs.length) b = Memory.ofBytesFrom a (bs ++ [b]) := by
  induction bs generalizing a with
  | nil => rfl
  | cons c bs ih =>
    simp only [Memory.ofBytesFrom, Memory.write, List.length_cons, List.cons_append]
    rw [if_neg (by omega), if_neg (by omega), ← ih (a + 1), show a + 1 + bs.length = a + (bs.length + 1) by omega]

/-- The write at the end of a byte sequence is the append of R42. -/
theorem Memory.write_append {m : Memory} {off : Nat} (b : Byte) (h : m.dense) (ho : off = m.length) :
    m.write off b = Memory.ofBytes (m.bytes ++ [b]) := by
  subst ho
  have := Memory.write_ofBytesFrom 0 m.bytes b
  rw [Nat.zero_add, Memory.bytes_length, ← Memory.ofBytes, ← h] at this
  exact this

theorem Memory.read_ofBytesFrom (a : Nat) (bs : List Byte) (off : Nat) :
    Memory.read (Memory.ofBytesFrom a bs) (a + off) = bs[off]? := by
  induction bs generalizing a off with
  | nil => simp [Memory.ofBytesFrom]
  | cons b bs ih =>
    cases off with
    | zero => simp [Memory.ofBytesFrom, Memory.read]
    | succ k =>
      have := ih (a + 1) k
      simp only [Memory.ofBytesFrom, Memory.read, List.getElem?_cons_succ]
      rw [if_neg (by omega), ← this, show a + 1 + k = a + (k + 1) by omega]

/-- A read of a byte sequence is the indexed byte. -/
theorem Memory.read_of_dense {m : Memory} (h : m.dense) (off : Nat) : m.read off = m.bytes[off]? := by
  conv_lhs => rw [h]
  have := Memory.read_ofBytesFrom 0 m.bytes off
  simpa [Memory.ofBytes] using this

/-- `MemRead(off, 4)` on a byte sequence that `fill` counts is LE32 (R41). -/
theorem memRead32_of_dense {s : State} {off : Nat} (h : s.buf.dense) (hf : s.fill.toNat = s.buf.length)
    (ho : off + 4 ≤ s.fill.toNat) : memRead32 off s = le32 s.buf.bytes off := by
  have hl : off + 4 ≤ s.buf.bytes.length := by simp; omega
  obtain ⟨b0, b1, b2, b3, hd⟩ := exists_drop_eq hl
  have g0 : s.buf.bytes[off]? = some b0 := by
    rw [← List.head?_drop, hd]; rfl
  have g1 : s.buf.bytes[off + 1]? = some b1 := by
    have := congrArg (fun l => l[1]?) hd; simpa using this
  have g2 : s.buf.bytes[off + 2]? = some b2 := by
    have := congrArg (fun l => l[2]?) hd; simpa using this
  have g3 : s.buf.bytes[off + 3]? = some b3 := by
    have := congrArg (fun l => l[3]?) hd; simpa using this
  simp [memRead32, ho, Memory.read_of_dense h, g0, g1, g2, g3, le32_eq_of_drop hd]

/-- A valid view is LE32 of the buffer's bytes (R22). -/
theorem State.x_of_dense {s : State} (i : Fin 6) (h : s.buf.dense) (hf : s.fill.toNat = s.buf.length)
    (ho : 24 ≤ s.fill.toNat) : ∃ w, s.x i = .ok w ∧ le32 s.buf.bytes (4 * i.val) = some w := by
  have hi := i.isLt
  obtain ⟨w, hw⟩ := le32_isSome (s := s.buf.bytes) (off := 4 * i.val) (by simp; omega)
  refine ⟨w, ?_, hw⟩
  simp [State.x, show ¬ s.fill.toNat < 24 by omega, memRead32_of_dense (off := 4 * i.val) h hf (by omega), hw]

end Sys2Proof.Machine
end

