-- ==== Sys2Proof/Laws/State.lean ====
section
/-! SUPPORT. One lemma per field of State that an operation writes, and one that it leaves alone, true by rfl, so that no later proof
unfolds a record update. -/

namespace Sys2Proof.Machine

/-! ## acceptByte -/
section
variable (b : Byte) (s : State)
@[simp] theorem acceptByte_live : (acceptByte b s).live = s.live := rfl
@[simp] theorem acceptByte_buf : (acceptByte b s).buf = s.buf.write s.fill.toNat b := rfl
@[simp] theorem acceptByte_fill : (acceptByte b s).fill = s.fill + 1 := rfl
@[simp] theorem acceptByte_expected : (acceptByte b s).expected = s.expected := rfl
@[simp] theorem acceptByte_fault : (acceptByte b s).fault = s.fault := rfl
@[simp] theorem acceptByte_faultCause : (acceptByte b s).faultCause = s.faultCause := rfl
@[simp] theorem acceptByte_faultInfo : (acceptByte b s).faultInfo = s.faultInfo := rfl
@[simp] theorem acceptByte_consumed : (acceptByte b s).consumed = s.consumed + 1 := rfl
@[simp] theorem acceptByte_out : (acceptByte b s).out = s.out := rfl
@[simp] theorem acceptByte_maxPayload : (acceptByte b s).maxPayload = s.maxPayload := rfl
@[simp] theorem acceptByte_input : (acceptByte b s).input = s.input := rfl
end

/-! ## setExpected -/
section
variable (v : Offset) (s : State)
@[simp] theorem setExpected_live : (setExpected v s).live = s.live := rfl
@[simp] theorem setExpected_buf : (setExpected v s).buf = s.buf := rfl
@[simp] theorem setExpected_fill : (setExpected v s).fill = s.fill := rfl
@[simp] theorem setExpected_expected : (setExpected v s).expected = some v := rfl
@[simp] theorem setExpected_fault : (setExpected v s).fault = s.fault := rfl
@[simp] theorem setExpected_faultCause : (setExpected v s).faultCause = s.faultCause := rfl
@[simp] theorem setExpected_faultInfo : (setExpected v s).faultInfo = s.faultInfo := rfl
@[simp] theorem setExpected_consumed : (setExpected v s).consumed = s.consumed := rfl
@[simp] theorem setExpected_out : (setExpected v s).out = s.out := rfl
@[simp] theorem setExpected_maxPayload : (setExpected v s).maxPayload = s.maxPayload := rfl
@[simp] theorem setExpected_input : (setExpected v s).input = s.input := rfl
end

/-! ## completeMessage -/
section
variable (r : Record) (s : State)
@[simp] theorem completeMessage_live : (completeMessage r s).live = s.live := rfl
@[simp] theorem completeMessage_buf : (completeMessage r s).buf = [] := rfl
@[simp] theorem completeMessage_fill : (completeMessage r s).fill = 0 := rfl
@[simp] theorem completeMessage_expected : (completeMessage r s).expected = none := rfl
@[simp] theorem completeMessage_fault : (completeMessage r s).fault = s.fault := rfl
@[simp] theorem completeMessage_faultCause : (completeMessage r s).faultCause = s.faultCause := rfl
@[simp] theorem completeMessage_faultInfo : (completeMessage r s).faultInfo = s.faultInfo := rfl
@[simp] theorem completeMessage_consumed : (completeMessage r s).consumed = s.consumed := rfl
@[simp] theorem completeMessage_out : (completeMessage r s).out = s.out ++ [r] := rfl
@[simp] theorem completeMessage_maxPayload : (completeMessage r s).maxPayload = s.maxPayload := rfl
@[simp] theorem completeMessage_input : (completeMessage r s).input = s.input := rfl
end

/-! ## raiseOversize -/
section
variable (len : Word) (s : State)
@[simp] theorem raiseOversize_live : (raiseOversize len s).live = s.live := rfl
@[simp] theorem raiseOversize_buf : (raiseOversize len s).buf = s.buf := rfl
@[simp] theorem raiseOversize_fill : (raiseOversize len s).fill = s.fill := rfl
@[simp] theorem raiseOversize_expected : (raiseOversize len s).expected = s.expected := rfl
@[simp] theorem raiseOversize_fault : (raiseOversize len s).fault = true := rfl
@[simp] theorem raiseOversize_faultCause : (raiseOversize len s).faultCause = 4 := rfl
@[simp] theorem raiseOversize_faultInfo : (raiseOversize len s).faultInfo = len := rfl
@[simp] theorem raiseOversize_consumed : (raiseOversize len s).consumed = s.consumed := rfl
@[simp] theorem raiseOversize_out : (raiseOversize len s).out = s.out := rfl
@[simp] theorem raiseOversize_maxPayload : (raiseOversize len s).maxPayload = s.maxPayload := rfl
@[simp] theorem raiseOversize_input : (raiseOversize len s).input = s.input := rfl
end

/-! ## The reset state -/
section
variable (cap : Word) (es : List Event)
@[simp] theorem afterReset_live : (State.afterReset cap es).live = true := rfl
@[simp] theorem afterReset_buf : (State.afterReset cap es).buf = [] := rfl
@[simp] theorem afterReset_fill : (State.afterReset cap es).fill = 0 := rfl
@[simp] theorem afterReset_expected : (State.afterReset cap es).expected = none := rfl
@[simp] theorem afterReset_fault : (State.afterReset cap es).fault = false := rfl
@[simp] theorem afterReset_faultCause : (State.afterReset cap es).faultCause = 0 := rfl
@[simp] theorem afterReset_faultInfo : (State.afterReset cap es).faultInfo = 0 := rfl
@[simp] theorem afterReset_consumed : (State.afterReset cap es).consumed = 0 := rfl
@[simp] theorem afterReset_out : (State.afterReset cap es).out = [] := rfl
@[simp] theorem afterReset_maxPayload : (State.afterReset cap es).maxPayload = cap := rfl
@[simp] theorem afterReset_input : (State.afterReset cap es).input = es := rfl
end

/-- A view depends on the buffer and the position counter alone (R22). -/
theorem State.x_congr {s t : State} (hb : s.buf = t.buf) (hf : s.fill = t.fill) (i : Fin 6) : s.x i = t.x i := by
  simp [State.x, memRead32, hb, hf]

end Sys2Proof.Machine
end

