-- ==== Sys2Proof/Laws/Framer.lean ====
section
/-! SUPPORT. What each shared operation of the framer can do, said once: later proofs cite these instead of unfolding. -/

namespace Sys2Proof.Machine

/-- Every message's meaning is the common semantics with its row's class code and tag (R115 to R122). -/
theorem exec_eq_emitMessage (i : Instr) (s : State) :
    exec i s = emitMessage (instrClass i) i.command i.operands s := by
  cases i <;> rfl

/-- A message within the cap completes. -/
theorem exec_within {i : Instr} {s : State} (h : i.operands.length ≤ s.maxPayload) :
    exec i s = .next (completeMessage (instrRecord i) s) := by
  rw [exec_eq_emitMessage, emitMessage, if_neg (by simpa [BitVec.not_lt] using h)]
  rfl

/-- A message above the cap takes the fault. -/
theorem exec_above {i : Instr} {s : State} (h : s.maxPayload < i.operands.length) :
    exec i s = .next (raiseOversize i.operands.length s) := by
  rw [exec_eq_emitMessage, emitMessage, if_pos h]

/-- Everything part 3 of PUSH_BYTE can do (R85). -/
theorem completionCheck_next {s t : State} (h : completionCheck s = .next t) :
    (t = s ∧ s.expected ≠ some s.fill) ∨
    (∃ i, s.expected = some s.fill ∧ decode s.buf.bytes = .ok i ∧ exec i s = .next t) := by
  unfold completionCheck at h
  split at h
  · cases h; exact .inl ⟨rfl, by simp [*]⟩
  · rename_i v hv
    split at h
    · rename_i hf
      split at h
      · exact .inr ⟨_, by rw [hv, hf], ‹_›, h⟩
      · cases h
    · rename_i hf
      cases h
      exact .inl ⟨rfl, by rw [hv]; simpa using fun hh => hf hh.symm⟩

/-- Part 3 waits unless `fill` has reached the marker. -/
theorem completionCheck_waits {s : State} (h : s.expected ≠ some s.fill) : completionCheck s = .next s := by
  unfold completionCheck
  split
  · rfl
  · rename_i v hv
    rw [if_neg]
    rintro rfl
    exact h hv

/-- Part 3 executes the message its bytes spell when `fill` has reached the marker. -/
theorem completionCheck_executes {s : State} {i : Instr} (h : s.expected = some s.fill)
    (hd : decode s.buf.bytes = .ok i) : completionCheck s = exec i s := by
  simp [completionCheck, h, hd]

/-- Part 2 does nothing except at header byte 23. -/
theorem headerCheck_elsewhere {s : State} (h : s.fill ≠ 24) : headerCheck s = completionCheck s := by
  rw [headerCheck, if_neg h]

/-- Part 2 takes the fault when the length is above the cap. -/
theorem headerCheck_oversize {s : State} {len : Word} (h : s.fill = 24) (hx : s.x 3 = .ok len)
    (hm : s.maxPayload < len) : headerCheck s = .next (raiseOversize len s) := by
  rw [headerCheck, if_pos h, hx]
  exact if_pos hm

/-- Part 2 marks the total when the cap allows the length. -/
theorem headerCheck_within {s : State} {len : Word} (h : s.fill = 24) (hx : s.x 3 = .ok len)
    (hm : ¬ s.maxPayload < len) : headerCheck s = completionCheck (setExpected (messageTotal len) s) := by
  rw [headerCheck, if_pos h, hx]
  exact if_neg hm

/-- Everything PUSH_BYTE can do when it goes on (R83 to R85, R136). -/
theorem pushByte_next {b : Byte} {s t : State} (h : pushByte b s = .next t) :
    s.live = true ∧ s.fault = false ∧ s.fill.toNat < s.capacity ∧
    ((∃ len, s.fill + 1 = 24 ∧ (acceptByte b s).x 3 = .ok len ∧ s.maxPayload < len ∧
        t = raiseOversize len (acceptByte b s)) ∨
     (∃ len, s.fill + 1 = 24 ∧ (acceptByte b s).x 3 = .ok len ∧ ¬ s.maxPayload < len ∧
        completionCheck (setExpected (messageTotal len) (acceptByte b s)) = .next t) ∨
     (s.fill + 1 ≠ 24 ∧ completionCheck (acceptByte b s) = .next t)) := by
  unfold pushByte at h
  split at h
  · cases h
  · split at h
    · cases h
    · unfold memAppend at h
      split at h
      · rename_i hl hf hc
        simp only [andThen, headerCheck] at h
        refine ⟨by simpa using hl, by simpa using hf, hc, ?_⟩
        split at h
        · rename_i h24
          split at h
          · rename_i len hx
            split at h
            · cases h; exact .inl ⟨len, h24, hx, ‹_›, rfl⟩
            · exact .inr (.inl ⟨len, h24, hx, ‹_›, h⟩)
          · cases h
        · exact .inr (.inr ⟨‹_›, h⟩)
      · cases h

/-- An accepted byte, to be used when the guards are known. -/
theorem pushByte_accepts {b : Byte} {s : State} (hl : s.live = true) (hf : s.fault = false)
    (hc : s.fill.toNat < s.capacity) : pushByte b s = headerCheck (acceptByte b s) := by
  simp [pushByte, hl, hf, memAppend, hc, andThen]

/-- A refused byte (R13). -/
theorem pushByte_refuses {b : Byte} {s : State} (h : s.live = false ∨ s.fault = true) :
    pushByte b s = .refused .notLive ∨ pushByte b s = .refused .faultLatched := by
  cases hl : s.live
  · simp [pushByte, hl]
  · have hf : s.fault = true := by simpa [hl] using h
    simp [pushByte, hl, hf]

/-- Everything one event can do when it is taken (R82). -/
theorem takeEvent_next {e : Event} {s t : State} (h : takeEvent e s = .next t) :
    (e = .reset ∧ t = resetBlock s) ∨ (∃ b, e = .pushByte b ∧ pushByte b s = .next t) ∨ (e = .push [] ∧ t = s) ∨
    (∃ b bs, e = .push (b :: bs) ∧ pushByte b { s with input := chunkRest bs s.input } = .next t) := by
  unfold takeEvent at h
  split at h
  · cases h; exact .inl ⟨rfl, rfl⟩
  · exact .inr (.inl ⟨_, rfl, h⟩)
  · cases h; exact .inr (.inr (.inl ⟨rfl, rfl⟩))
  · exact .inr (.inr (.inr ⟨_, _, rfl, h⟩))

/-- Everything one step can do when it goes on: wait, RESET, take a byte, or take an empty chunk. -/
theorem step_next {s t : State} (h : step s = .next t) :
    (s.input = [] ∧ t = s) ∨ (∃ es, s.input = .reset :: es ∧ t = State.afterReset s.maxPayload es) ∨
    (∃ es, s.input = .push [] :: es ∧ t = { s with input := es }) ∨
    (∃ e b es, s.input = e :: es ∧ e ≠ .reset ∧ ∃ es', pushByte b { s with input := es' } = .next t) := by
  unfold step takeNext at h
  split at h
  · cases h; exact .inl ⟨‹_›, rfl⟩
  · rename_i e es hi
    rcases takeEvent_next h with ⟨rfl, rfl⟩ | ⟨b, rfl, hb⟩ | ⟨rfl, rfl⟩ | ⟨b, bs, rfl, hb⟩
    · exact .inr (.inl ⟨es, hi, rfl⟩)
    · exact .inr (.inr (.inr ⟨_, b, es, hi, by simp, es, hb⟩))
    · exact .inr (.inr (.inl ⟨es, hi, rfl⟩))
    · exact .inr (.inr (.inr ⟨_, b, es, hi, by simp, _, hb⟩))

/-- A run whose first step goes on is that step and then the rest of the run. -/
theorem run_succ_of_step {M : Host.Core} {k : Nat} {s t : M.State} (h : M.step s = .next t) :
    M.run (k + 1) s = M.run k t := by
  simp only [Host.Core.run, h]

/-- The same for this machine. -/
theorem run_succ_of_next {k : Nat} {s t : State} (h : step s = .next t) :
    Host.Core.run core (k + 1) s = Host.Core.run core k t :=
  run_succ_of_step (M := core) h

/-- The invariant's parts do not speak of the host's events. -/
theorem State.Framed.withInput {s : State} (h : s.Framed) (es : List Event) : ({ s with input := es } : State).Framed :=
  ⟨h.dense, h.fill_eq, h.header, h.payload, h.faulted, h.clean, h.counted⟩

theorem State.Inv.withInput {s : State} (h : s.Inv) (es : List Event) : ({ s with input := es } : State).Inv :=
  ⟨h.wf, fun hl => (h.framed hl).withInput es⟩

end Sys2Proof.Machine
end

