-- ==== Sys2Proof/Laws/PerInstr.lean ====
section
/-! SUPPORT. A law of every message as syntax, one lemma per constructor: its encoding is 24 header bytes and then exactly its payload,
and the class code of its row is the one CLASSIFY gives its command. -/

namespace Sys2Proof.Laws.Encoding

open Sys2Proof Sys2Proof.Machine

/-- The shape of a well-formed message's encoding (R60, R71), and its class code (R65, R103). -/
def Statement (i : Instr) : Prop :=
  i.wellFormed = true →
    (encode i).length = 24 + i.operands.length.toNat ∧ (encode i).take 24 = encodeHeader i.header ∧
    (encode i).drop 24 = i.operands.payload ∧ instrClass i = (classify i.command).code

theorem shape {i : Instr} (hw : i.wellFormed = true) :
    (encode i).length = 24 + i.operands.length.toNat ∧ (encode i).take 24 = encodeHeader i.header ∧
    (encode i).drop 24 = i.operands.payload := by
  refine ⟨?_, ?_, ?_⟩
  · rw [encode, List.length_append, encodeHeader_length, wellFormed_payload hw]
  · rw [encode, List.take_append_of_le_length (by simp), List.take_of_length_le (by simp)]
  · rw [encode, List.drop_append_of_le_length (by simp), List.drop_of_length_le (by simp), List.nil_append]

theorem sync (m : Operands) : Statement (.sync m) := fun hw => ⟨(shape hw).1, (shape hw).2.1, (shape hw).2.2, rfl⟩
theorem connect (m : Operands) : Statement (.connect m) := fun hw => ⟨(shape hw).1, (shape hw).2.1, (shape hw).2.2, rfl⟩
theorem openMsg (m : Operands) : Statement (.openMsg m) := fun hw => ⟨(shape hw).1, (shape hw).2.1, (shape hw).2.2, rfl⟩
theorem ready (m : Operands) : Statement (.ready m) := fun hw => ⟨(shape hw).1, (shape hw).2.1, (shape hw).2.2, rfl⟩
theorem close (m : Operands) : Statement (.close m) := fun hw => ⟨(shape hw).1, (shape hw).2.1, (shape hw).2.2, rfl⟩
theorem write (m : Operands) : Statement (.write m) := fun hw => ⟨(shape hw).1, (shape hw).2.1, (shape hw).2.2, rfl⟩
theorem unrecognized (c : Word) (m : Operands) : Statement (.unrecognized c m) := fun hw =>
  ⟨(shape hw).1, (shape hw).2.1, (shape hw).2.2, by
    have hc : c ∉ knownCommands := by
      simp only [Instr.wellFormed, Bool.and_eq_true, decide_eq_true_eq] at hw
      exact hw.1
    simp [Instr.command, instrClass, classify_other hc, Command.code]⟩

end Sys2Proof.Laws.Encoding
end

