-- ==== Sys2Proof/Tests/Slice0.lean ====
section
/-! SUPPORT. The model's own tests, expected values from the spec's vectors (95_test_vectors.md) and examples, and for every statement
with hypotheses a witness that meets them all, one per clause, at the clause's boundary. -/

namespace Sys2Proof.Tests

open Sys2Proof Sys2Proof.Machine

/-! ## Byte streams of the spec's vectors -/

/-- S1, from the source: SYNC with a magic that is not the complement. -/
def s1 : List Byte :=
    [0x53, 0x59, 0x4E, 0x43, 0x00, 0x00, 0x00, 0x00, 0x01, 0x00, 0x00, 0x00, 0x00, 0x00, 0x00, 0x00, 0x00, 0x00, 0x00,
    0x00, 0xAC, 0xA6, 0xB0, 0xBC]
/-- D2: distinct bytes in every position. -/
def d2 : List Byte :=
    [0x01, 0x02, 0x03, 0x04, 0x05, 0x06, 0x07, 0x08, 0x09, 0x0A, 0x0B, 0x0C, 0x00, 0x00, 0x00, 0x00, 0x11, 0x12, 0x13,
    0x14, 0x15, 0x16, 0x17, 0x18]
/-- D3: WRITE 1, 2, payload "hello". -/
def d3 : List Byte :=
    [0x57, 0x52, 0x54, 0x45, 0x01, 0x00, 0x00, 0x00, 0x02, 0x00, 0x00, 0x00, 0x05, 0x00, 0x00, 0x00, 0x00, 0x00, 0x00,
    0x00, 0xA8, 0xAD, 0xAB, 0xBA, 0x68, 0x65, 0x6C, 0x6C, 0x6F]
/-- R117's example. -/
def connectMsg : List Byte :=
    [0x43, 0x4E, 0x58, 0x4E, 0x00, 0x00, 0x00, 0x01, 0x00, 0x10, 0x00, 0x00, 0x07, 0x00, 0x00, 0x00, 0x00, 0x00, 0x00,
    0x00, 0xBC, 0xB1, 0xA7, 0xB1, 0x68, 0x6F, 0x73, 0x74, 0x3A, 0x3A, 0x00]
/-- R118's example. -/
def openMsg : List Byte :=
    [0x4F, 0x50, 0x45, 0x4E, 0x01, 0x00, 0x00, 0x00, 0x00, 0x00, 0x00, 0x00, 0x06, 0x00, 0x00, 0x00, 0x00, 0x00, 0x00,
    0x00, 0xB0, 0xAF, 0xBA, 0xB1, 0x73, 0x68, 0x65, 0x6C, 0x6C, 0x3A]
/-- R119's example. -/
def readyMsg : List Byte :=
    [0x4F, 0x4B, 0x41, 0x59, 0x02, 0x00, 0x00, 0x00, 0x01, 0x00, 0x00, 0x00, 0x00, 0x00, 0x00, 0x00, 0x00, 0x00, 0x00,
    0x00, 0xB0, 0xB4, 0xBE, 0xA6]
/-- R120's example. -/
def closeMsg : List Byte :=
    [0x43, 0x4C, 0x53, 0x45, 0x01, 0x00, 0x00, 0x00, 0x02, 0x00, 0x00, 0x00, 0x00, 0x00, 0x00, 0x00, 0x00, 0x00, 0x00,
    0x00, 0xBC, 0xB3, 0xAC, 0xBA]
/-- R122's example. -/
def authMsg : List Byte :=
    [0x41, 0x55, 0x54, 0x48, 0x01, 0x00, 0x00, 0x00, 0x00, 0x00, 0x00, 0x00, 0x02, 0x00, 0x00, 0x00, 0x00, 0x00, 0x00,
    0x00, 0xBE, 0xAA, 0xAB, 0xB7, 0xAA, 0xBB]
/-- P4: a WRITE header that declares 4097 payload bytes. -/
def overMsg : List Byte :=
    [0x57, 0x52, 0x54, 0x45, 0x01, 0x00, 0x00, 0x00, 0x02, 0x00, 0x00, 0x00, 0x01, 0x10, 0x00, 0x00, 0x00, 0x00, 0x00,
    0x00, 0xA8, 0xAD, 0xAB, 0xBA]
/-- P4's boundary case: the same header with 4096 declared. -/
def capMsg : List Byte :=
    [0x57, 0x52, 0x54, 0x45, 0x01, 0x00, 0x00, 0x00, 0x02, 0x00, 0x00, 0x00, 0x00, 0x10, 0x00, 0x00, 0x00, 0x00, 0x00,
    0x00, 0xA8, 0xAD, 0xAB, 0xBA]
/-- D5: a header of 24 bytes FF. -/
def ones : List Byte :=
    [0xFF, 0xFF, 0xFF, 0xFF, 0xFF, 0xFF, 0xFF, 0xFF, 0xFF, 0xFF, 0xFF, 0xFF, 0xFF, 0xFF, 0xFF, 0xFF, 0xFF, 0xFF, 0xFF,
    0xFF, 0xFF, 0xFF, 0xFF, 0xFF]

/-! ## WellFormed: each check refuses a term -/

theorem test_wf_sync_short : Instr.wellFormed (.sync ⟨0, 0, 1, 0, 0, []⟩) = false := by decide
theorem test_wf_connect_long : Instr.wellFormed (.connect ⟨0, 0, 0, 0, 0, [0xAA]⟩) = false := by decide
theorem test_wf_open_short : Instr.wellFormed (.openMsg ⟨0, 0, 2, 0, 0, [0xAA]⟩) = false := by decide
theorem test_wf_ready_long : Instr.wellFormed (.ready ⟨0, 0, 1, 0, 0, [0xAA, 0xBB]⟩) = false := by decide
theorem test_wf_close_short : Instr.wellFormed (.close ⟨0, 0, 0x80000000, 0, 0, []⟩) = false := by decide
theorem test_wf_write_long : Instr.wellFormed (.write ⟨0, 0, 0, 0, 0, [0]⟩) = false := by decide
theorem test_wf_unrecognized_short : Instr.wellFormed (.unrecognized 0x48545541 ⟨0, 0, 1, 0, 0, []⟩) = false := by decide
/-- A known tag is not "unrecognized", for each of the six. -/
theorem test_wf_unrecognized_known :
    knownCommands.map (fun c => Instr.wellFormed (.unrecognized c ⟨0, 0, 0, 0, 0, []⟩)) = List.replicate 6 false := by decide
theorem test_wf_accepts : Instr.wellFormed (.write ⟨1, 2, 2, 0, 0, [0xAA, 0xBB]⟩) = true ∧
    Instr.wellFormed (.unrecognized 0x434E5952 ⟨0, 0, 0, 0, 0, []⟩) = true := by decide

/-! ## Decoding: words written out from the spec's encoding (D7, S1, D2, D3, D5, R117, R122) -/

theorem test_decode_sync : decode
      [0x53, 0x59, 0x4E, 0x43, 0x00, 0x00, 0x00, 0x00, 0x00, 0x00, 0x00, 0x00, 0x00, 0x00, 0x00, 0x00, 0x00, 0x00,
      0x00, 0x00, 0xAC, 0xA6, 0xB1, 0xBC]
    = .ok (.sync ⟨0, 0, 0, 0, 0xBCB1A6AC, []⟩) := by decide
theorem test_decode_connect : decode
      [0x43, 0x4E, 0x58, 0x4E, 0x00, 0x00, 0x00, 0x00, 0x00, 0x00, 0x00, 0x00, 0x00, 0x00, 0x00, 0x00, 0x00, 0x00,
      0x00, 0x00, 0xBC, 0xB1, 0xA7, 0xB1]
    = .ok (.connect ⟨0, 0, 0, 0, 0xB1A7B1BC, []⟩) := by decide
theorem test_decode_openMsg : decode
      [0x4F, 0x50, 0x45, 0x4E, 0x00, 0x00, 0x00, 0x00, 0x00, 0x00, 0x00, 0x00, 0x00, 0x00, 0x00, 0x00, 0x00, 0x00,
      0x00, 0x00, 0xB0, 0xAF, 0xBA, 0xB1]
    = .ok (.openMsg ⟨0, 0, 0, 0, 0xB1BAAFB0, []⟩) := by decide
theorem test_decode_ready : decode
      [0x4F, 0x4B, 0x41, 0x59, 0x00, 0x00, 0x00, 0x00, 0x00, 0x00, 0x00, 0x00, 0x00, 0x00, 0x00, 0x00, 0x00, 0x00,
      0x00, 0x00, 0xB0, 0xB4, 0xBE, 0xA6]
    = .ok (.ready ⟨0, 0, 0, 0, 0xA6BEB4B0, []⟩) := by decide
theorem test_decode_close : decode
      [0x43, 0x4C, 0x53, 0x45, 0x00, 0x00, 0x00, 0x00, 0x00, 0x00, 0x00, 0x00, 0x00, 0x00, 0x00, 0x00, 0x00, 0x00,
      0x00, 0x00, 0xBC, 0xB3, 0xAC, 0xBA]
    = .ok (.close ⟨0, 0, 0, 0, 0xBAACB3BC, []⟩) := by decide
theorem test_decode_write : decode
      [0x57, 0x52, 0x54, 0x45, 0x00, 0x00, 0x00, 0x00, 0x00, 0x00, 0x00, 0x00, 0x00, 0x00, 0x00, 0x00, 0x00, 0x00,
      0x00, 0x00, 0xA8, 0xAD, 0xAB, 0xBA]
    = .ok (.write ⟨0, 0, 0, 0, 0xBAABADA8, []⟩) := by decide
theorem test_decode_unrecognized : decode d2 =
    .ok (.unrecognized 0x04030201 ⟨0x08070605, 0x0C0B0A09, 0, 0x14131211, 0x18171615, []⟩) := by decide
theorem test_decode_source_example : decode s1 = .ok (.sync ⟨0, 1, 0, 0, 0xBCB0A6AC, []⟩) := by decide
theorem test_decode_payload : decode d3 = .ok (.write ⟨1, 2, 5, 0, 0xBAABADA8, [0x68, 0x65, 0x6C, 0x6C, 0x6F]⟩) := by decide
theorem test_decode_short : decode (d3.take 28) = .error (.insufficientData 29) ∧
    decode (d3.take 23) = .error (.insufficientData 24) := by decide
theorem test_decode_surplus : decode (d3 ++ [0xAA]) = decode d3 := by decide
theorem test_decode_ones : decode ones = .error (.insufficientData 0x100000017) := by decide

/-! ## The opcode table's words -/

theorem test_table_sync : decodeTableWord 192 0x434E5953 = some (.sync ⟨0, 0, 0, 0, 0, []⟩) := by decide
theorem test_table_connect : decodeTableWord 192 0x4E584E43 = some (.connect ⟨0, 0, 0, 0, 0, []⟩) := by decide
theorem test_table_openMsg : decodeTableWord 192 0x4E45504F = some (.openMsg ⟨0, 0, 0, 0, 0, []⟩) := by decide
theorem test_table_ready : decodeTableWord 192 0x59414B4F = some (.ready ⟨0, 0, 0, 0, 0, []⟩) := by decide
theorem test_table_close : decodeTableWord 192 0x45534C43 = some (.close ⟨0, 0, 0, 0, 0, []⟩) := by decide
theorem test_table_write : decodeTableWord 192 0x45545257 = some (.write ⟨0, 0, 0, 0, 0, []⟩) := by decide
theorem test_table_unrecognized : decodeTableWord 192 0 = some (.unrecognized 0 ⟨0, 0, 0, 0, 0, []⟩) := by decide
theorem test_table_fields : decodeTableWord 192 0x181716151413121100000000_0C0B0A090807060504030201 =
    some (.unrecognized 0x04030201 ⟨0x08070605, 0x0C0B0A09, 0, 0x14131211, 0x18171615, []⟩) := by decide

/-! ## Primitives (sets A, B, C) -/

theorem test_le32 : le32 [0x78, 0x56, 0x34, 0x12] 0 = some 0x12345678 ∧ le32 [0, 0, 0, 0x80] 0 = some 0x80000000 ∧
    le32 [0, 0, 0, 1] 0 = some 0x01000000 ∧ bytes32 0x12345678 = [0x78, 0x56, 0x34, 0x12] := by decide
theorem test_requiredLength_33_bits : requiredLength ones = .ok 0x100000017 := by decide
theorem test_requiredLength_short : requiredLength (d3.take 16) = .error (.insufficientData 24) := by decide
/-- C9, C10, C11, C12, C14, C15. -/
theorem test_near_misses : ([0x434E5952, 0xC34E5953, 0x53594E43, 0xBCB1A6AC, 0x4E45504E, 0x45545258] : List Word).map
    (fun v => (classify v).code) = [0, 0, 0, 0, 0, 0] := by decide
theorem test_magicMatch : hdrDecode s1 = .ok ⟨0x434E5953, 0, 1, 0, 0, 0xBCB0A6AC⟩ ∧
    magicMatch ⟨0x434E5953, 0, 1, 0, 0, 0xBCB0A6AC⟩ = false ∧ magicMatch ⟨0x434E5953, 0, 1, 0, 0, 0xBCB1A6AC⟩ = true := by decide
/-- P5's program in the notation of R70: its first line is R122's example. -/
theorem test_notation : programBytes [.message { command := 0x48545541, arg0 := 1, arg1 := 0, payload := [0xAA, 0xBB] },
    .rawBytes [0x53]] = authMsg ++ [0x53] := by decide

/-! ## Steps -/

/-- What a test looks at after a step: phase, `fill`, records. -/
def after : Host.Outcome State Fault Refusal → Option (Phase × Offset × List Record)
  | .next t => some (t.phase, t.fill, t.out)
  | _ => none

/-- The tuple in which sets E and F write a state. -/
structure Shape where
  phase : Phase
  fill : Offset
  expected : Option Offset
  fault : Bool
  cause : BitVec 3
  info : Word
deriving DecidableEq, Repr

/-- The tuple of the next state. -/
def tuple : Host.Outcome State Fault Refusal → Option Shape
  | .next t => some ⟨t.phase, t.fill, t.expected, t.fault, t.faultCause, t.faultInfo⟩
  | _ => none

/-- A live, un-faulted block with cap `cap` that holds the bytes `bs`, `expected` set as the bytes say. -/
def holding (cap : Word) (bs : List Byte) : State :=
  { State.afterReset cap [] with
    buf := Memory.ofBytes bs, fill := BitVec.ofNat 33 bs.length, expected := markerOf bs, consumed := bs.length }

/-- The state in which F4 and F5 begin, for an offending header `bs`. -/
def faulted (cap : Word) (bs : List Byte) (len : Word) : State :=
  { State.afterReset cap [] with
    buf := Memory.ofBytes bs, fill := 24, consumed := 24, fault := true, faultCause := 4, faultInfo := len }

theorem test_step_sync : after (step (State.reset.withFetchWord 192 0x434E5953)) =
    some (.header, 0, [⟨1, 0x434E5953, 0, 0, 0, 0, 0, []⟩]) := by decide
theorem test_step_connect : after (step (State.reset.withFetchWord 192 0x4E584E43)) =
    some (.header, 0, [⟨2, 0x4E584E43, 0, 0, 0, 0, 0, []⟩]) := by decide
theorem test_step_openMsg : after (step (State.reset.withFetchWord 192 0x4E45504F)) =
    some (.header, 0, [⟨3, 0x4E45504F, 0, 0, 0, 0, 0, []⟩]) := by decide
theorem test_step_ready : after (step (State.reset.withFetchWord 192 0x59414B4F)) =
    some (.header, 0, [⟨4, 0x59414B4F, 0, 0, 0, 0, 0, []⟩]) := by decide
theorem test_step_close : after (step (State.reset.withFetchWord 192 0x45534C43)) =
    some (.header, 0, [⟨5, 0x45534C43, 0, 0, 0, 0, 0, []⟩]) := by decide
theorem test_step_write : after (step (State.reset.withFetchWord 192 0x45545257)) =
    some (.header, 0, [⟨6, 0x45545257, 0, 0, 0, 0, 0, []⟩]) := by decide
theorem test_step_unrecognized : after (step (State.reset.withFetchWord 192 0x434E5952)) =
    some (.header, 0, [⟨0, 0x434E5952, 0, 0, 0, 0, 0, []⟩]) := by decide
/-- E4, E5, E6: header completion, a payload byte, the last payload byte. -/
theorem test_e4 : tuple (pushByte 0xBA (holding 4096 (d3.take 23))) = some ⟨.payload, 24, some 29, false, 0, 0⟩ := by decide
theorem test_e5 : tuple (pushByte 0x68 (holding 4096 (d3.take 24))) = some ⟨.payload, 25, some 29, false, 0, 0⟩ := by decide
theorem test_e6 : after (pushByte 0x6F (holding 4096 (d3.take 28))) =
    some (.header, 0, [⟨6, 0x45545257, 1, 2, 5, 0, 0xBAABADA8, [0x68, 0x65, 0x6C, 0x6C, 0x6F]⟩]) := by decide
/-- E2: the length bytes are there, nothing is read early. -/
theorem test_e2 : tuple (pushByte 0x00 (holding 4096 (d3.take 15))) = some ⟨.header, 16, none, false, 0, 0⟩ := by decide
/-- E9: a header-only message completes on byte 23. -/
theorem test_e9 : after (pushByte 0xBC (holding 4096 (s1.take 23))) =
    some (.header, 0, [⟨1, 0x434E5953, 0, 1, 0, 0, 0xBCB0A6AC, []⟩]) := by decide
/-- F1, F2: one above the cap faults, the cap itself does not. -/
theorem test_f1 : tuple (pushByte 0xBA (holding 4096 (overMsg.take 23))) = some ⟨.fault, 24, none, true, 4, 0x1001⟩ := by decide
theorem test_f2 : tuple (pushByte 0xBA (holding 4096 (capMsg.take 23))) = some ⟨.payload, 24, some 4120, false, 0, 0⟩ := by decide
/-- F3: the largest length, with the vectors' cap and with no cap. -/
theorem test_f3 : tuple (pushByte 0xFF (holding 4096 (ones.take 23))) = some ⟨.fault, 24, none, true, 4, 0xFFFFFFFF⟩ ∧
    tuple (pushByte 0xFF (holding 0xFFFFFFFF (ones.take 23))) = some ⟨.payload, 24, some 0x100000017, false, 0, 0⟩ := by decide
/-- F4: refused in FAULT; and E10: refused before the first RESET. -/
theorem test_f4 : pushByte 0xAA (faulted 4096 overMsg 0x1001) = .refused .faultLatched := by rfl
theorem test_e10 : pushByte 0 { holding 4096 [] with live := false } = .refused .notLive := by rfl
/-- F5: RESET is the exit from FAULT. -/
theorem test_f5 : tuple (takeEvent .reset (faulted 4096 overMsg 0x1001)) = some ⟨.header, 0, none, false, 0, 0⟩ := by decide
/-- F7: with cap 0 a header-only message completes. -/
theorem test_f7 : after (pushByte 0xBC (holding 0 (s1.take 23))) =
    some (.header, 0, [⟨1, 0x434E5953, 0, 1, 0, 0, 0xBCB0A6AC, []⟩]) := by decide
/-- E8: the empty chunk. -/
theorem test_e8 : step { State.reset with input := [.push []] } = .next State.reset := by rfl
/-- STATUS after E1, E4 and in FAULT. -/
theorem test_status : (holding 4096 (d3.take 1)).status = .insufficientData 24 ∧
    (holding 4096 (d3.take 24)).status = .insufficientData 29 ∧ (holding 4096 (d3.take 24)).haveBytes = 24 ∧
    (faulted 4096 overMsg 0x1001).status = .fault 4 0x1001 ∧ (faulted 4096 overMsg 0x1001).needTotal = 0 := by decide
/-- P4: a refused byte, then RESET, then a message (the first header byte only). -/
theorem test_p4 : tuple (runEvents [.push [0xAA, 0xBB], .reset, .push [0x4F]] (faulted 4096 overMsg 0x1001)) =
    some ⟨.header, 1, none, false, 0, 0⟩ := by decide

/-! ## States of the invariant, for the witnesses -/

theorem holding_header {cap : Word} {bs : List Byte} (h : bs.length ≤ 23) : (holding cap bs).Framed := by
  have hf : (holding cap bs).fill.toNat = bs.length := by
    show (BitVec.ofNat 33 bs.length).toNat = _
    rw [BitVec.toNat_ofNat]; omega
  have he : (holding cap bs).expected = none := by
    show markerOf bs = none
    rw [markerOf, requiredLength_short (by omega)]
  refine ⟨Memory.dense_ofBytes bs, ?_, ?_, ?_, fun h => (by cases h), fun _ => ⟨rfl, rfl⟩, ?_⟩
  · rw [hf]; exact (Memory.length_ofBytes bs).symm
  · intro _ _; omega
  · intro _ v hv; rw [he] at hv; cases hv
  · rw [hf]; rfl

theorem holding_payload {cap len : Word} {bs : List Byte} (hx : (holding cap bs).x 3 = .ok len) (hl : len ≤ cap)
    (hv : markerOf bs = some (messageTotal len)) (h24 : 24 ≤ bs.length) (ht : bs.length < 24 + len.toNat) :
    (holding cap bs).Framed := by
  have hlen := len.isLt
  have hf : (holding cap bs).fill.toNat = bs.length := by
    show (BitVec.ofNat 33 bs.length).toNat = _
    rw [BitVec.toNat_ofNat]; omega
  have he : (holding cap bs).expected = some (messageTotal len) := hv
  refine ⟨Memory.dense_ofBytes bs, ?_, ?_, ?_, fun h => (by cases h), fun _ => ⟨rfl, rfl⟩, ?_⟩
  · rw [hf]; exact (Memory.length_ofBytes bs).symm
  · intro _ h; rw [he] at h; cases h
  · intro _ v h
    rw [he] at h; cases h
    exact ⟨len, hx, rfl, hl, by omega, by rw [messageTotal_toNat]; omega⟩
  · rw [hf]; rfl

theorem faulted_framed {cap len : Word} {bs : List Byte} (h24 : bs.length = 24) (hx : (faulted cap bs len).x 3 = .ok len)
    (hl : cap < len) : (faulted cap bs len).Framed :=
  ⟨Memory.dense_ofBytes bs, by rw [show (faulted cap bs len).buf.length = 24 from by
      rw [show (faulted cap bs len).buf = Memory.ofBytes bs from rfl, Memory.length_ofBytes, h24]]; rfl,
    fun h => (by cases h), fun h => (by cases h), fun _ => ⟨rfl, rfl, rfl, hx, hl⟩, fun h => (by cases h), rfl⟩

theorem inv_of_framed {s : State} (h : s.Framed) : s.Inv := ⟨Memory.wf_of_dense h.dense, fun _ => h⟩

/-- The block after E4: 24 bytes of the "hello" message, 29 expected. -/
theorem framed_24 : (holding 4096 (d3.take 24)).Framed :=
  holding_payload (len := 5) (by rfl) (by decide) (by decide) (by decide) (by decide)
/-- The block before E6: 28 of the 29 bytes. -/
theorem framed_28 : (holding 4096 (d3.take 28)).Framed :=
  holding_payload (len := 5) (by rfl) (by decide) (by decide) (by decide) (by decide)
/-- The state of F4 and F5. -/
theorem framed_faulted : (faulted 4096 overMsg 0x1001).Framed := faulted_framed (by decide) (by rfl) (by decide)
/-- The condition before the first RESET, whatever the other elements hold. -/
theorem inv_dead : ({ State.reset with live := false, fill := 77, fault := true } : State).Inv :=
  ⟨Memory.nil_wf, fun h => (by cases h)⟩

/-! ## Witnesses: bytes, decoding, encoding -/

/-- Four bytes end exactly at the end of the sequence. -/
theorem witness_Le32AndBytes32 : 4 + 4 ≤ [(1 : Byte), 2, 3, 4, 5, 6, 7, 8].length ∧
    le32 [1, 2, 3, 4, 5, 6, 7, 8] 4 = some 0x08070605 := by decide
theorem witness_HeaderWordFields : 24 ≤ d2.length ∧ (headerWord d2).extractLsb' 0 32 = 0x04030201 ∧
    (headerWord d2).extractLsb' 160 32 = 0x18171615 := by decide
theorem witness_HdrDecodeReadsSixFields_short : (d2.take 23).length < 24 := by decide
theorem witness_HdrDecodeReadsSixFields_full : 24 ≤ d2.length := by decide
theorem witness_HdrDecodeReadsSixFields_views : (holding 4096 (d3.take 24)).Framed ∧
    hdrDecode (holding 4096 (d3.take 24)).buf.bytes = .ok ⟨0x45545257, 1, 2, 5, 0, 0xBAABADA8⟩ :=
  ⟨framed_24, by decide⟩
theorem witness_HeaderRoundTrip : d2.length = 24 := by decide
theorem witness_RequiredLengthIsExact_short : (d3.take 23).length < 24 := by decide
theorem witness_RequiredLengthIsExact_full : 24 ≤ ones.length := by decide
/-- Two prefixes that agree in bytes 12 to 15 only. -/
theorem witness_RequiredLengthIsExact_only : 24 ≤ (ones.take 12 ++ d3.drop 12).length ∧ 24 ≤ d3.length ∧
    slice (ones.take 12 ++ d3.drop 12) 12 16 = slice d3 12 16 ∧ ones.take 12 ++ d3.drop 12 ≠ d3 := by decide
theorem witness_ClassifyIsExactMatch : (0x434E5952 : Word) ≠ 0x434E5953 ∧ (0x434E5952 : Word) ≠ 0x4E584E43 ∧
    (0x434E5952 : Word) ≠ 0x4E45504F ∧ (0x434E5952 : Word) ≠ 0x59414B4F ∧ (0x434E5952 : Word) ≠ 0x45534C43 ∧
    (0x434E5952 : Word) ≠ 0x45545257 := by decide
theorem witness_RecordClassMatchesCommand_known :
    decodeRecord readyMsg = .ok ⟨4, 0x59414B4F, 2, 1, 0, 0, 0xA6BEB4B0, []⟩ := by decide
theorem witness_RecordClassMatchesCommand_unrecognized :
    decodeRecord authMsg = .ok ⟨0, 0x48545541, 1, 0, 2, 0, 0xB7ABAABE, [0xAA, 0xBB]⟩ := by decide
theorem witness_DecodeRecordCases_noHeader : (d3.take 23).length < 24 := by decide
theorem witness_DecodeRecordCases_noPayload : hdrDecode (d3.take 28) = .ok ⟨0x45545257, 1, 2, 5, 0, 0xBAABADA8⟩ ∧
    (d3.take 28).length < 24 + (5 : Word).toNat := by decide
theorem witness_DecodeRecordCases_exact : hdrDecode d3 = .ok ⟨0x45545257, 1, 2, 5, 0, 0xBAABADA8⟩ ∧
    24 + (5 : Word).toNat ≤ d3.length := by decide
theorem witness_DecodeRecordCases_surplus : hdrDecode (d3 ++ [0xAA]) = .ok ⟨0x45545257, 1, 2, 5, 0, 0xBAABADA8⟩ ∧
    24 + (5 : Word).toNat ≤ (d3 ++ [0xAA]).length := by decide
theorem witness_RecordHoldsTheMessageBytes : decodeRecord (d3 ++ [0xAA]) =
    .ok ⟨6, 0x45545257, 1, 2, 5, 0, 0xBAABADA8, [0x68, 0x65, 0x6C, 0x6C, 0x6F]⟩ := by decide
theorem witness_HandOffSplitsHeaderAndPayload : requiredLength d3 = .ok 29 ∧ d3.length = (29 : Offset).toNat := by decide
theorem witness_HandOffSplitsHeaderAndPayload_headerOnly : requiredLength s1 = .ok 24 ∧ s1.length = (24 : Offset).toNat := by
  decide
theorem witness_CheckFieldsDecideNothing : (s1.take 16).length = 16 ∧
    decodeRecord (s1.take 16 ++ bytes32 0 ++ bytes32 0xBCB0A6AC ++ []) = .ok ⟨1, 0x434E5953, 0, 1, 0, 0, 0xBCB0A6AC, []⟩ := by
  decide
theorem witness_DecodeOfEncode : ∀ i ∈ [Instr.sync ⟨0, 1, 0, 0, 0xBCB0A6AC, []⟩, .connect ⟨0, 0, 1, 0, 0, [7]⟩,
    .openMsg ⟨1, 0, 1, 0, 0, [0xFF]⟩, .ready ⟨2, 1, 0, 0, 0xA6BEB4B0, []⟩, .close ⟨1, 2, 0, 0, 0, []⟩,
    .write ⟨1, 2, 2, 0xFFFFFFFF, 0, [0xAA, 0xBB]⟩, .unrecognized 0xFFFFFFFF ⟨0, 0, 0, 0, 0, []⟩], i.wellFormed = true := by
  decide
theorem witness_EncodeOfDecode : decode (readyMsg ++ [0x4F]) = .ok (.ready ⟨2, 1, 0, 0, 0xA6BEB4B0, []⟩) := by decide
theorem witness_EveryMessageDecodes_noHeader : (ones.take 23).length < 24 := by decide
theorem witness_EveryMessageDecodes_whole : 24 ≤ d3.length ∧ le32 d3 12 = some 5 ∧ 24 + (5 : Word).toNat ≤ d3.length := by
  decide
theorem witness_EveryMessageDecodes_noPayload : 24 ≤ (d3.take 28).length ∧ le32 (d3.take 28) 12 = some 5 ∧
    (d3.take 28).length < 24 + (5 : Word).toNat := by decide

/-! ## Witnesses: the buffer -/

theorem witness_MemReadFollowsTheBuffer_byte : (holding 4096 (d3.take 24)).Framed ∧
    23 + 1 ≤ (holding 4096 (d3.take 24)).fill.toNat := ⟨framed_24, by decide⟩
theorem witness_MemReadFollowsTheBuffer_noByte : (holding 4096 (d3.take 24)).Framed ∧
    (holding 4096 (d3.take 24)).fill.toNat < 24 + 1 := ⟨framed_24, by decide⟩
theorem witness_MemReadFollowsTheBuffer_word : (holding 4096 (d3.take 24)).Framed ∧
    20 + 4 ≤ (holding 4096 (d3.take 24)).fill.toNat := ⟨framed_24, by decide⟩
theorem witness_MemReadFollowsTheBuffer_noWord : (holding 4096 (d3.take 24)).Framed ∧
    (holding 4096 (d3.take 24)).fill.toNat < 21 + 4 := ⟨framed_24, by decide⟩
/-- The last byte of storage of a block with cap 0. -/
theorem witness_AppendStoresAtFill : (holding 0 (d3.take 23)).Framed ∧
    (holding 0 (d3.take 23)).fill.toNat < 24 + (holding 0 (d3.take 23)).maxPayload.toNat ∧
    ¬ (holding 0 (d3.take 23)).fill.toNat + 1 < 24 + (holding 0 (d3.take 23)).maxPayload.toNat :=
  ⟨holding_header (by decide), by decide, by decide⟩
theorem witness_HeaderViewsAliasTheBuffer_invalid : (holding 4096 (d3.take 23)).fill.toNat < 24 := by decide
theorem witness_HeaderViewsAliasTheBuffer_valid : (holding 4096 (d3.take 24)).Framed ∧
    24 ≤ (holding 4096 (d3.take 24)).fill.toNat := ⟨framed_24, by decide⟩

/-! ## Witnesses: the messages -/

/-- The cap itself is within the cap. -/
theorem witness_KnownMessagesEmitTheirRecord : (⟨1, 2, 4096, 0, 0, []⟩ : Operands).length ≤ State.reset.maxPayload := by decide
theorem witness_UnrecognizedMessageEmitsItsRecord :
    (⟨1, 2, 4096, 0, 0, []⟩ : Operands).length ≤ State.reset.maxPayload := by decide
theorem witness_OversizeMessageTakesTheFault :
    State.reset.maxPayload < (Instr.write ⟨1, 2, 4097, 0, 0, []⟩).operands.length := by decide
theorem witness_MessageFrame_within : (∃ t, exec (.write ⟨1, 2, 4096, 0, 0, []⟩) State.reset = .next t) ∧
    (Instr.write ⟨1, 2, 4096, 0, 0, []⟩).operands.length ≤ State.reset.maxPayload := ⟨⟨_, rfl⟩, by decide⟩
theorem witness_MessageFrame_above : (∃ t, exec (.write ⟨1, 2, 4097, 0, 0, []⟩) State.reset = .next t) ∧
    State.reset.maxPayload < (Instr.write ⟨1, 2, 4097, 0, 0, []⟩).operands.length := ⟨⟨_, rfl⟩, by decide⟩

/-! ## Witnesses: PUSH_BYTE -/

theorem witness_BytesAreRefusedExactlyWhenDeadOrFaulted_dead :
    ({ State.reset with live := false } : State).live = false ∨ State.reset.fault = true := by decide
theorem witness_BytesAreRefusedExactlyWhenDeadOrFaulted_faulted :
    (faulted 4096 overMsg 0x1001).live = false ∨ (faulted 4096 overMsg 0x1001).fault = true := by decide
theorem witness_EarlyHeaderByteIsStored : (holding 4096 (d3.take 22)).Framed ∧ (holding 4096 (d3.take 22)).live = true ∧
    (holding 4096 (d3.take 22)).fault = false ∧ (holding 4096 (d3.take 22)).expected = none ∧
    (holding 4096 (d3.take 22)).fill.toNat < 23 :=
  ⟨holding_header (by decide), by decide, by decide, by decide, by decide⟩
/-- The cap itself. -/
theorem witness_HeaderCompletionSetsExpected : (holding 4096 (capMsg.take 23)).Framed ∧
    (holding 4096 (capMsg.take 23)).live = true ∧ (holding 4096 (capMsg.take 23)).fault = false ∧
    (holding 4096 (capMsg.take 23)).fill = 23 ∧ (holding 4096 (capMsg.take 23)).expected = none ∧
    le32 (holding 4096 (capMsg.take 23)).buf.bytes 12 = some 4096 ∧ 1 ≤ (4096 : Word).toNat ∧
    (4096 : Word) ≤ (holding 4096 (capMsg.take 23)).maxPayload :=
  ⟨holding_header (by decide), by decide, by decide, by decide, by decide, by decide, by decide, by decide⟩
theorem witness_HeaderOnlyMessageCompletesAtByte23 : (holding 0 (s1.take 23)).Framed ∧ (holding 0 (s1.take 23)).live = true ∧
    (holding 0 (s1.take 23)).fault = false ∧ (holding 0 (s1.take 23)).fill = 23 ∧ (holding 0 (s1.take 23)).expected = none ∧
    le32 (holding 0 (s1.take 23)).buf.bytes 12 = some 0 :=
  ⟨holding_header (by decide), by decide, by decide, by decide, by decide, by decide⟩
/-- One above the cap. -/
theorem witness_OversizeHeaderTakesTheFault : (holding 4096 (overMsg.take 23)).Framed ∧
    (holding 4096 (overMsg.take 23)).live = true ∧ (holding 4096 (overMsg.take 23)).fault = false ∧
    (holding 4096 (overMsg.take 23)).fill = 23 ∧ (holding 4096 (overMsg.take 23)).expected = none ∧
    le32 (holding 4096 (overMsg.take 23)).buf.bytes 12 = some 4097 ∧
    (holding 4096 (overMsg.take 23)).maxPayload < (4097 : Word) :=
  ⟨holding_header (by decide), by decide, by decide, by decide, by decide, by decide, by decide⟩
theorem witness_EarlyPayloadByteIsStored : (holding 4096 (d3.take 24)).Framed ∧ (holding 4096 (d3.take 24)).live = true ∧
    (holding 4096 (d3.take 24)).fault = false ∧ (holding 4096 (d3.take 24)).expected = some 29 ∧
    (holding 4096 (d3.take 24)).fill.toNat + 1 < (29 : Offset).toNat := ⟨framed_24, by decide, by decide, by decide, by decide⟩
theorem witness_LastByteEmitsTheRecord : (holding 4096 (d3.take 28)).Framed ∧ (holding 4096 (d3.take 28)).live = true ∧
    (holding 4096 (d3.take 28)).fault = false ∧ (holding 4096 (d3.take 28)).expected = some 29 ∧
    (holding 4096 (d3.take 28)).fill.toNat + 1 = (29 : Offset).toNat := ⟨framed_28, by decide, by decide, by decide, by decide⟩
theorem witness_AfterAMessageAsAfterReset : (holding 4096 (d3.take 28)).Inv ∧
    ∃ t, pushByte 0x6F (holding 4096 (d3.take 28)) = .next t ∧ t.out ≠ (holding 4096 (d3.take 28)).out :=
  ⟨inv_of_framed framed_28, _, rfl, by decide⟩

/-- One witness per row of the phase table. -/
theorem witness_PhaseTableIsExhaustive_headerByte : (holding 4096 (d3.take 22)).Inv ∧
    ∃ t, pushByte 0xAB (holding 4096 (d3.take 22)) = .next t ∧ t.phase = .header ∧ t.fill = 23 :=
  ⟨inv_of_framed (holding_header (by decide)), _, rfl, by decide⟩
theorem witness_PhaseTableIsExhaustive_oversize : (holding 4096 (overMsg.take 23)).Inv ∧
    ∃ t, pushByte 0xBA (holding 4096 (overMsg.take 23)) = .next t ∧ t.phase = .fault :=
  ⟨inv_of_framed (holding_header (by decide)), _, rfl, by decide⟩
theorem witness_PhaseTableIsExhaustive_headerOnly : (holding 4096 (s1.take 23)).Inv ∧
    ∃ t, pushByte 0xBC (holding 4096 (s1.take 23)) = .next t ∧ t.phase = .header ∧ t.fill = 0 :=
  ⟨inv_of_framed (holding_header (by decide)), _, rfl, by decide⟩
theorem witness_PhaseTableIsExhaustive_toPayload : (holding 4096 (d3.take 23)).Inv ∧
    ∃ t, pushByte 0xBA (holding 4096 (d3.take 23)) = .next t ∧ t.phase = .payload :=
  ⟨inv_of_framed (holding_header (by decide)), _, rfl, by decide⟩
theorem witness_PhaseTableIsExhaustive_payloadByte : (holding 4096 (d3.take 24)).Inv ∧
    ∃ t, pushByte 0x68 (holding 4096 (d3.take 24)) = .next t ∧ t.phase = .payload ∧ t.fill = 25 :=
  ⟨inv_of_framed framed_24, _, rfl, by decide⟩
theorem witness_PhaseTableIsExhaustive_lastByte : (holding 4096 (d3.take 28)).Inv ∧
    ∃ t, pushByte 0x6F (holding 4096 (d3.take 28)) = .next t ∧ t.phase = .header ∧ t.fill = 0 :=
  ⟨inv_of_framed framed_28, _, rfl, by decide⟩
/-- The header with the largest length is completed under "no cap". -/
theorem witness_NoCapMeansNoFault : (holding 0xFFFFFFFF (ones.take 23)).maxPayload = 0xFFFFFFFF ∧
    (holding 0xFFFFFFFF (ones.take 23)).fault = false ∧
    ∃ t, step { holding 0xFFFFFFFF (ones.take 23) with input := [.pushByte 0xFF] } = .next t ∧ t.fill = 24 :=
  ⟨by decide, by decide, _, rfl, by decide⟩

/-! ## Witnesses: reset, status, the step -/

theorem witness_OnlyResetRevivesTheBlock_reset : (faulted 4096 overMsg 0x1001).fault = true ∧
    ∃ t, step { faulted 4096 overMsg 0x1001 with input := [.reset] } = .next t ∧ t.fault = false := ⟨rfl, _, rfl, rfl⟩
theorem witness_OnlyResetRevivesTheBlock_dead : ({ State.reset with live := false } : State).live = false ∧
    ∃ t, step { State.reset with live := false, input := [.reset] } = .next t ∧ t.live = true := ⟨rfl, _, rfl, rfl⟩
theorem witness_OnlyResetRevivesTheBlock_waits : (faulted 4096 overMsg 0x1001).fault = true ∧
    ∃ t, step { faulted 4096 overMsg 0x1001 with input := [.push []] } = .next t ∧ t.fault = true := ⟨rfl, _, rfl, rfl⟩
theorem witness_StatusQueryByPhase_fault : (faulted 4096 overMsg 0x1001).fault = true := rfl
theorem witness_StatusQueryByPhase_header : (holding 4096 (d3.take 23)).fault = false ∧
    (holding 4096 (d3.take 23)).expected = none := by decide
theorem witness_StatusQueryByPhase_payload : (holding 4096 (d3.take 24)).fault = false ∧
    (holding 4096 (d3.take 24)).expected = some 29 := by decide
theorem witness_StatusQueryByPhase_waiting : (holding 4096 (d3.take 28)).Inv ∧ (holding 4096 (d3.take 28)).live = true ∧
    (holding 4096 (d3.take 28)).fault = false := ⟨inv_of_framed framed_28, rfl, rfl⟩
theorem witness_BufferBoundAndCauseCodes : (holding 4096 (d3.take 28)).Inv ∧ (holding 4096 (d3.take 28)).live = true ∧
    (holding 4096 (d3.take 28)).fault = false := ⟨inv_of_framed framed_28, rfl, rfl⟩
theorem witness_BufferBoundAndCauseCodes_fault : (faulted 4096 overMsg 0x1001).Inv ∧
    (faulted 4096 overMsg 0x1001).live = true ∧ (faulted 4096 overMsg 0x1001).fault = true :=
  ⟨inv_of_framed framed_faulted, rfl, rfl⟩
/-- One state per shape of the host's list. -/
theorem witness_StepTakesTheOldestEvent : State.reset.input = [] ∧
    ({ State.reset with input := [.reset] } : State).input = .reset :: [] ∧
    ({ State.reset with input := [.pushByte 1, .reset] } : State).input = .pushByte 1 :: [.reset] ∧
    ({ State.reset with input := [.push []] } : State).input = .push [] :: [] ∧
    ({ State.reset with input := [.push [1]] } : State).input = .push [1] :: [] ∧
    ({ State.reset with input := [.push [1, 2, 3], .reset] } : State).input = .push (1 :: 2 :: [3]) :: [.reset] :=
  ⟨rfl, rfl, rfl, rfl, rfl, rfl⟩
theorem witness_StepRunsTheDecodedMessage_within :
    ({ holding 5 (d3.take 28) with input := [.pushByte 0x6F] } : State).Inv ∧
    (holding 5 (d3.take 28)).live = true ∧ (holding 5 (d3.take 28)).fault = false ∧
    (Instr.write ⟨1, 2, 5, 0, 0xBAABADA8, [0x68, 0x65, 0x6C, 0x6C, 0x6F]⟩).wellFormed = true ∧
    (5 : Word) ≤ (holding 5 (d3.take 28)).maxPayload ∧
    encode (.write ⟨1, 2, 5, 0, 0xBAABADA8, [0x68, 0x65, 0x6C, 0x6C, 0x6F]⟩) = (holding 5 (d3.take 28)).buf.bytes ++ [0x6F] :=
  ⟨(inv_of_framed (holding_payload (len := 5) (by rfl) (by decide) (by decide) (by decide) (by decide))).withInput _,
    rfl, rfl, by decide, by decide, by decide⟩
theorem witness_StepRunsTheDecodedMessage_above :
    ({ holding 4 (d3.take 23) with input := [.pushByte 0xBA] } : State).Inv ∧
    (holding 4 (d3.take 23)).live = true ∧ (holding 4 (d3.take 23)).fault = false ∧
    (Instr.write ⟨1, 2, 5, 0, 0xBAABADA8, [0x68, 0x65, 0x6C, 0x6C, 0x6F]⟩).wellFormed = true ∧
    (holding 4 (d3.take 23)).maxPayload < (5 : Word) ∧
    (encode (.write ⟨1, 2, 5, 0, 0xBAABADA8, [0x68, 0x65, 0x6C, 0x6C, 0x6F]⟩)).take 24 =
      (holding 4 (d3.take 23)).buf.bytes ++ [0xBA] :=
  ⟨(inv_of_framed (holding_header (by decide))).withInput _, rfl, rfl, by decide, by decide, by decide⟩
theorem witness_StepKeepsTheInvariant : ({ holding 4096 (d3.take 23) with input := [.push [0xBA, 0x68]] } : State).Inv ∧
    ∃ t, step { holding 4096 (d3.take 23) with input := [.push [0xBA, 0x68]] } = .next t ∧ t.expected = some 29 :=
  ⟨(inv_of_framed (holding_header (by decide))).withInput _, _, rfl, by decide⟩
theorem witness_StepKeepsTheInvariant_dead :
    ({ State.reset with live := false, fill := 77, fault := true, input := [.reset] } : State).Inv ∧
    ∃ t, step { State.reset with live := false, fill := 77, fault := true, input := [.reset] } = .next t ∧ t.live = true :=
  ⟨inv_dead.withInput _, _, rfl, rfl⟩
/-- The step that emits a record. -/
theorem witness_StepKeepsRecordsSound : ({ holding 4096 (d3.take 28) with input := [.pushByte 0x6F] } : State).Inv ∧
    ({ holding 4096 (d3.take 28) with input := [.pushByte 0x6F] } : State).RecordsSound ∧
    ∃ t, step { holding 4096 (d3.take 28) with input := [.pushByte 0x6F] } = .next t ∧ t.out.length = 1 :=
  ⟨(inv_of_framed framed_28).withInput _, fun r hr => (by cases hr), _, rfl, by decide⟩
theorem witness_InvariantStatesNeverStop_next : ({ holding 4096 (d3.take 28) with input := [.pushByte 0x6F] } : State).Inv ∧
    ∃ t, step { holding 4096 (d3.take 28) with input := [.pushByte 0x6F] } = .next t :=
  ⟨(inv_of_framed framed_28).withInput _, _, rfl⟩
theorem witness_InvariantStatesNeverStop_faulted : ({ faulted 4096 overMsg 0x1001 with input := [.pushByte 0xAA] } : State).Inv ∧
    step { faulted 4096 overMsg 0x1001 with input := [.pushByte 0xAA] } = .refused .faultLatched :=
  ⟨(inv_of_framed framed_faulted).withInput _, rfl⟩
theorem witness_InvariantStatesNeverStop_dead :
    ({ State.reset with live := false, fill := 77, fault := true, input := [.push [1]] } : State).Inv ∧
    step { State.reset with live := false, fill := 77, fault := true, input := [.push [1]] } = .refused .notLive :=
  ⟨inv_dead.withInput _, rfl⟩
theorem witness_RecordsAreOnlyAppended_record :
    ∃ t, step { holding 4096 (d3.take 28) with input := [.pushByte 0x6F] } = .next t ∧ t.out.length = 1 := ⟨_, rfl, by decide⟩
theorem witness_RecordsAreOnlyAppended_fault : (holding 4096 (overMsg.take 23)).fault = false ∧
    ∃ t, step { holding 4096 (overMsg.take 23) with input := [.pushByte 0xBA] } = .next t ∧ t.fault = true :=
  ⟨rfl, _, rfl, by decide⟩

/-! ## Witnesses: chunks and streams -/

/-- E12's cuttings of the 29 bytes. -/
theorem witness_FragmentationIndependence :
    [d3.take 12, slice d3 12 14, d3.drop 14].flatten = [d3.take 23, slice d3 23 24, slice d3 24 28, d3.drop 28].flatten := by
  decide
/-- A chunk that ends one message and begins the next. -/
theorem witness_ChunkEventRunsByteByByte : ([0x6F, 0x53] : List Byte) ≠ [] ∧
    ({ holding 4096 (d3.take 28) with input := [.push [0x6F, 0x53], .reset] } : State).input =
      .push [0x6F, 0x53] :: [.reset] ∧
    ∃ t, pushChunk [0x6F, 0x53] { holding 4096 (d3.take 28) with input := [.reset] } = .next ⟨t, []⟩ ∧ t.fill = 1 :=
  ⟨by decide, rfl, _, rfl, by decide⟩
theorem witness_BulkEqualsByteSerial : (holding 4096 (d3.take 28)).Inv ∧ (holding 4096 (d3.take 28)).live = true :=
  ⟨inv_of_framed framed_28, rfl⟩
theorem witness_RecordsCoverTheStream : (holding 4096 (overMsg.take 23)).Inv ∧ (holding 4096 (overMsg.take 23)).live = true ∧
    ∃ t, pushChunk [0xBA, 0xAA, 0xBB] (holding 4096 (overMsg.take 23)) = .next ⟨t, [0xAA, 0xBB]⟩ :=
  ⟨inv_of_framed (holding_header (by decide)), rfl, _, rfl⟩
theorem witness_WellFormedStreamIsDelivered : State.reset.Inv ∧ State.reset.live = true ∧ State.reset.fault = false ∧
    State.reset.fill = 0 ∧ ∀ i ∈ [Instr.ready ⟨2, 1, 0, 0, 0xA6BEB4B0, []⟩, .write ⟨1, 2, 2, 0, 0, [0xAA, 0xBB]⟩],
      i.wellFormed = true ∧ i.operands.length ≤ State.reset.maxPayload :=
  ⟨inv_of_framed (holding_header (cap := resetMaxPayload) (bs := []) (by decide)), rfl, rfl, rfl, by decide⟩
theorem witness_HistoryDecidesNothing :
    ∃ t, pushChunk [0x6F, 0x53] (holding 4096 (d3.take 28)) = .next ⟨t, []⟩ ∧ t.out.length = 1 := ⟨_, rfl, by decide⟩
theorem witness_InstancesAreIndependent : ∃ after, stepInstance 1 [State.reset, { State.reset with input := [.pushByte 0x53] }] =
    .next after ∧ after.map State.fill = [0, 1] := ⟨_, rfl, by decide⟩
theorem witness_PlacedWordRunsNext : decodeTableWord 192 0x434E5953 = some (.sync ⟨0, 0, 0, 0, 0, []⟩) := by decide
/-- A word with a payload: length 2, payload AA BB. -/
theorem witness_PlacedWordRunsNext_payload :
    decodeTableWord 208 0xBBAA_00000000_00000000_00000002_00000000_00000001_48545541 =
      some (.unrecognized 0x48545541 ⟨1, 0, 2, 0, 0, [0xAA, 0xBB]⟩) := by decide

end Sys2Proof.Tests
end

/-! # Proofs of the family 00_scope: the byte and word primitives (R11) -/

namespace Sys2Proof

/-- Appending a byte below a bit string is adding it to the string weighted by 2^8: the bits do not overlap. -/
theorem toNat_append_byte {n : Nat} (x : BitVec n) (b : Byte) : (x ++ b).toNat = 2 ^ 8 * x.toNat + b.toNat := by
  rw [BitVec.toNat_append, ← Nat.shiftLeft_add_eq_or_of_lt b.isLt, Nat.shiftLeft_eq, Nat.mul_comm]

/-- R11's two forms of LE32 agree: the weighted sum is the concatenation with the last byte on top. -/
theorem le4_eq_append (b0 b1 b2 b3 : Byte) : le4 b0 b1 b2 b3 = b3 ++ b2 ++ b1 ++ b0 := by
  apply BitVec.eq_of_toNat_eq
  rw [le4_toNat, toNat_append_byte, toNat_append_byte, toNat_append_byte]
  omega

/-- The bytes a sequence holds from `off` on are those its tail at `off` begins with. -/
theorem getElem?_of_drop_eq {s : List Byte} {off : Nat} {b0 b1 b2 b3 : Byte} {t : List Byte}
    (h : s.drop off = b0 :: b1 :: b2 :: b3 :: t) :
    s[off]? = some b0 ∧ s[off + 1]? = some b1 ∧ s[off + 2]? = some b2 ∧ s[off + 3]? = some b3 := by
  have read (i : Nat) : s[off + i]? = (b0 :: b1 :: b2 :: b3 :: t)[i]? := by rw [← h, List.getElem?_drop]
  exact ⟨read 0, read 1, read 2, read 3⟩

/-- Settles O1: LE32 of four bytes is `le4` of them, whose sum, concatenation and byte slices are known; the converse
is LE32 of the byte slices. -/
theorem le32AndBytes32 : Obligations.Le32AndBytes32 := by
  refine ⟨fun s off hoff => ?_, fun v t => ⟨rfl, le32_bytes32 v t⟩⟩
  obtain ⟨b0, b1, b2, b3, hdrop⟩ := exists_drop_eq hoff
  obtain ⟨h0, h1, h2, h3⟩ := getElem?_of_drop_eq hdrop
  exact ⟨b0, b1, b2, b3, le4 b0 b1 b2 b3, h0, h1, h2, h3, le32_eq_of_drop hdrop, le4_toNat b0 b1 b2 b3,
    le4_eq_append b0 b1 b2 b3, bytes32_le4 b0 b1 b2 b3⟩

end Sys2Proof

/-! # Proofs of the family 40_framer: the length of a message (R80) -/

namespace Sys2Proof

/-- A read depends on the four bytes at its offset alone: it is the read of their slice (R9, R11). -/
theorem le32_slice {s : List Byte} {off : Nat} (h : off + 4 ≤ s.length) :
    le32 (slice s off (off + 4)) 0 = le32 s off := by
  calc le32 (slice s off (off + 4)) 0
      = le32 ((s.drop off).take 4) 0 := by rw [slice, Nat.add_sub_cancel_left]
    _ = le32 (s.drop off) 0 := le32_take (by omega) (by rw [List.length_drop]; omega)
    _ = le32 s off := by simp only [le32, List.drop_zero]

/-- REQUIRED_LENGTH where the whole header is there: the total of the length field alone, whatever the other bytes. -/
theorem requiredLength_of_le32 {p : List Byte} {len : Word} (hp : 24 ≤ p.length) (hlen : le32 p 12 = some len) :
    requiredLength p = .ok (messageTotal len) := by
  simp [requiredLength, Nat.not_lt.mpr hp, hlen]

/-- Settles O5: a prefix of 24 bytes has a length field, whose total does not wrap in 33 bits; equal slices 12 to 16
are equal length fields. -/
theorem requiredLengthIsExact : Obligations.RequiredLengthIsExact := by
  refine ⟨fun p hp => requiredLength_short hp, fun p hp => ?exact, fun p q hp hq hslice => ?onlyLengthBytes⟩
  case exact =>
    obtain ⟨len, hlen⟩ := le32_isSome (s := p) (off := 12) (by omega)
    exact ⟨len, messageTotal len, hlen, requiredLength_of_le32 hp hlen, messageTotal_toNat len⟩
  case onlyLengthBytes =>
    obtain ⟨len, hlen⟩ := le32_isSome (s := p) (off := 12) (by omega)
    have hsame : le32 q 12 = le32 p 12 := by
      rw [← le32_slice (s := q) (by omega), ← le32_slice (s := p) (by omega), hslice]
    rw [requiredLength_of_le32 hp hlen, requiredLength_of_le32 hq (hsame.trans hlen)]

end Sys2Proof

/-! # Proofs of the family 41_decoder: the header and the command map (R102, R103) -/

namespace Sys2Proof

/-- HDR_DECODE looks at the first 24 bytes only: whatever follows them can be replaced (R102). -/
theorem hdrDecode_take_append {b : List Byte} (t : List Byte) (h : 24 ≤ b.length) :
    hdrDecode (b.take 24 ++ t) = hdrDecode b := by
  have hlen : 24 ≤ (b.take 24).length := by rw [List.length_take]; omega
  calc hdrDecode (b.take 24 ++ t)
      = hdrDecode (b.take 24) := hdrDecode_append t hlen
    _ = hdrDecode (b.take 24 ++ b.drop 24) := (hdrDecode_append _ hlen).symm
    _ = hdrDecode b := by rw [List.take_append_drop]

/-- In a framed state that holds a whole header, a view is whatever LE32 reads at its offset (R22). -/
theorem Machine.State.Framed.x_of_le32 {s : Machine.State} (hs : s.Framed) (hfill : 24 ≤ s.fill.toNat) {i : Fin 6}
    {w : Word} (hw : le32 s.buf.bytes (4 * i.val) = some w) : s.x i = .ok w := by
  obtain ⟨w', hx, hw'⟩ := Machine.State.x_of_dense i hs.dense hs.fill_eq hfill
  obtain rfl : w = w' := Option.some.inj (hw.symm.trans hw')
  exact hx

/-- Settles O3: the header HDR_DECODE returns is its six reads, and in a framed state each view is the read at its
offset. -/
theorem hdrDecodeReadsSixFields : Obligations.HdrDecodeReadsSixFields := by
  refine ⟨fun b hb => hdrDecode_short hb, fun b hb => ?reads, fun s h hs hdec => ?views⟩
  case reads =>
    obtain ⟨h, hdec⟩ := hdrDecode_isOk hb
    obtain ⟨-, h0, h4, h8, h12, h16, h20⟩ := hdrDecode_ok hdec
    exact ⟨h.command, h.arg0, h.arg1, h.length, h.crc32, h.magic, hdec, h0, h4, h8, h12, h16, h20,
      fun t => hdrDecode_take_append t hb⟩
  case views =>
    obtain ⟨hlen, h0, h4, h8, h12, h16, h20⟩ := hdrDecode_ok hdec
    have hfill : 24 ≤ s.fill.toNat := by rwa [hs.fill_eq, ← Machine.Memory.bytes_length]
    exact ⟨hs.x_of_le32 hfill h0, hs.x_of_le32 hfill h4, hs.x_of_le32 hfill h8, hs.x_of_le32 hfill h12,
      hs.x_of_le32 hfill h16, hs.x_of_le32 hfill h20⟩

/-- A value is outside the command map exactly when it differs from each of the six constants (R103). -/
theorem not_mem_knownCommands_iff (v : Word) : v ∉ knownCommands ↔
    v ≠ cmdSync ∧ v ≠ cmdConnect ∧ v ≠ cmdOpen ∧ v ≠ cmdReady ∧ v ≠ cmdClose ∧ v ≠ cmdWrite := by
  simp [knownCommands]

/-- Settles O6: CLASSIFY at each of the six constants, and at a value outside the command map. -/
theorem classifyIsExactMatch : Obligations.ClassifyIsExactMatch := by
  obtain ⟨sync, connect, openMsg, ready, close, write⟩ := classify_known
  refine ⟨sync, congrArg Command.code sync, connect, congrArg Command.code connect, openMsg,
    congrArg Command.code openMsg, ready, congrArg Command.code ready, close, congrArg Command.code close, write,
    congrArg Command.code write, fun v h1 h2 h3 h4 h5 h6 => ?other⟩
  case other =>
    have hv : v ∉ knownCommands := (not_mem_knownCommands_iff v).mpr ⟨h1, h2, h3, h4, h5, h6⟩
    exact ⟨classify_other hv, congrArg Command.code (classify_other hv)⟩

end Sys2Proof

/-! # Proofs of the family other, part 1: the wire format (R60 to R72, R80, R81, R102 to R109) -/

namespace Sys2Proof

/-! ## Slices and words -/

theorem slice_zero (s : List Byte) (b : Nat) : slice s 0 b = s.take b := by simp [slice]

theorem slice_add (s : List Byte) (a n : Nat) : slice s a (a + n) = (s.drop a).take n := by
  rw [slice, Nat.add_sub_cancel_left]

/-- Adjacent slices join. -/
theorem slice_append_slice (s : List Byte) {a b c : Nat} (hab : a ≤ b) (hbc : b ≤ c) :
    slice s a b ++ slice s b c = slice s a c := by
  obtain ⟨m, rfl⟩ := Nat.exists_eq_add_of_le hab
  obtain ⟨n, rfl⟩ := Nat.exists_eq_add_of_le hbc
  rw [slice_add, slice_add, Nat.add_assoc, slice_add, List.take_add, List.drop_drop]

/-- BYTES32 undoes LE32: the bytes of a word read are the bytes it was read from (R11). -/
theorem bytes32_of_le32 {s : List Byte} {off : Nat} {w : Word} (h : le32 s off = some w) :
    bytes32 w = slice s off (off + 4) := by
  have hl : off + 4 ≤ s.length := by
    by_contra hc
    rw [le32_isNone (by omega)] at h
    cases h
  obtain ⟨b0, b1, b2, b3, hdrop⟩ := exists_drop_eq hl
  obtain rfl : le4 b0 b1 b2 b3 = w := Option.some.inj ((le32_eq_of_drop hdrop).symm.trans h)
  rw [bytes32_le4, slice_add, hdrop]
  rfl

/-! ## The header word -/

theorem natOfBytes_drop (k : Nat) (s : List Byte) : natOfBytes (s.drop k) = natOfBytes s / 2 ^ (8 * k) := by
  induction k generalizing s with
  | zero => simp
  | succ k ih =>
    cases s with
    | nil => simp [natOfBytes]
    | cons b s =>
      have hb := b.isLt
      have htail : natOfBytes s = natOfBytes (b :: s) / 2 ^ 8 := by simp only [natOfBytes]; omega
      rw [List.drop_succ_cons, ih, htail, Nat.div_div_eq_div_mul, ← Nat.pow_add, show 8 + 8 * k = 8 * (k + 1) by omega]

/-- LE32 is 32 bits of the integer that the whole sequence spells (R11, R61). -/
theorem le32_eq_natOfBytes {s : List Byte} {off : Nat} (h : off + 4 ≤ s.length) :
    le32 s off = some (BitVec.ofNat 32 (natOfBytes s / 2 ^ (8 * off))) := by
  obtain ⟨b0, b1, b2, b3, hdrop⟩ := exists_drop_eq h
  rw [le32_eq_of_drop hdrop, ← natOfBytes_drop, hdrop]
  congr 1
  apply BitVec.eq_of_toNat_eq
  have h0 := b0.isLt; have h1 := b1.isLt; have h2 := b2.isLt; have h3 := b3.isLt
  rw [le4_toNat, BitVec.toNat_ofNat]
  simp only [natOfBytes]
  omega

/-- A 32-bit slice of the header word is the word LE32 reads at its byte offset (R62). -/
theorem le32_eq_headerWord_slice {b : List Byte} {off : Nat} (hb : 24 ≤ b.length) (hoff : off + 4 ≤ 24) :
    le32 b off = some ((headerWord b).extractLsb' (8 * off) 32) := by
  rw [← le32_take (n := 24) hoff hb, le32_eq_natOfBytes (by rw [List.length_take]; omega), headerWord]
  congr 1
  refine BitVec.eq_of_getLsbD_eq fun i hi => ?_
  have hbit : i + 8 * off < 192 := by omega
  simp only [BitVec.getLsbD_extractLsb', BitVec.getLsbD_ofNat, Nat.testBit_div_two_pow, hi, hbit, Nat.add_comm,
    decide_true, Bool.true_and]

/-- Settles O2: each field is LE32 at its offset, which is the header word's slice there. -/
theorem headerWordFields : Obligations.HeaderWordFields := fun _ hb =>
  hdrDecode_of_reads (le32_eq_headerWord_slice hb (off := 0) (by decide))
    (le32_eq_headerWord_slice hb (off := 4) (by decide)) (le32_eq_headerWord_slice hb (off := 8) (by decide))
    (le32_eq_headerWord_slice hb (off := 12) (by decide)) (le32_eq_headerWord_slice hb (off := 16) (by decide))
    (le32_eq_headerWord_slice hb (off := 20) (by decide))

/-! ## Header serialisation and HDR_DECODE -/

theorem length_of_hdrDecode {b : List Byte} {h : Header} (hd : hdrDecode b = .ok h) : 24 ≤ b.length :=
  (hdrDecode_ok hd).1

/-- The declared length is LE32 at offset 12 (R62). -/
theorem le32_length_of_hdrDecode {b : List Byte} {h : Header} (hd : hdrDecode b = .ok h) :
    le32 b 12 = some h.length := by
  obtain ⟨-, -, -, -, h12, -, -⟩ := hdrDecode_ok hd
  exact h12

/-- A serialised header decodes to itself, whatever follows it (R108). -/
theorem hdrDecode_encodeHeader_append (h : Header) (t : List Byte) : hdrDecode (encodeHeader h ++ t) = .ok h := by
  apply hdrDecode_of_reads <;> simp only [encodeHeader, List.append_assoc]
  · exact le32_bytes32 _ _
  · exact le32_bytes32_at (bytes32 h.command) _ _
  · exact le32_bytes32_at (bytes32 h.command ++ bytes32 h.arg0) _ _
  · exact le32_bytes32_at (bytes32 h.command ++ bytes32 h.arg0 ++ bytes32 h.arg1) _ _
  · exact le32_bytes32_at (bytes32 h.command ++ bytes32 h.arg0 ++ bytes32 h.arg1 ++ bytes32 h.length) _ _
  · exact le32_bytes32_at
      (bytes32 h.command ++ bytes32 h.arg0 ++ bytes32 h.arg1 ++ bytes32 h.length ++ bytes32 h.crc32) _ _

/-- A decoded header serialises to the 24 bytes it was read from (R108). -/
theorem encodeHeader_of_hdrDecode {b : List Byte} {h : Header} (hd : hdrDecode b = .ok h) :
    encodeHeader h = b.take 24 := by
  obtain ⟨-, h0, h4, h8, h12, h16, h20⟩ := hdrDecode_ok hd
  rw [encodeHeader, bytes32_of_le32 h0, bytes32_of_le32 h4, bytes32_of_le32 h8, bytes32_of_le32 h12,
    bytes32_of_le32 h16, bytes32_of_le32 h20, slice_append_slice, slice_append_slice, slice_append_slice,
    slice_append_slice, slice_append_slice, slice_zero] <;> decide

/-- Settles O4: the two directions, the second on a header that decodes because there are 24 bytes. -/
theorem headerRoundTrip : Obligations.HeaderRoundTrip := by
  refine ⟨fun h => ?decodeOfEncode, fun b hb => ?encodeOfDecode⟩
  case decodeOfEncode => simpa using hdrDecode_encodeHeader_append h []
  case encodeOfDecode =>
    obtain ⟨h, hd⟩ := hdrDecode_isOk hb.ge
    exact ⟨h, hd, (encodeHeader_of_hdrDecode hd).trans (List.take_of_length_le hb.le)⟩

/-- Settles O11: the complement of `command` is `0xFFFFFFFF - command`. -/
theorem magicMatchIsComplement : Obligations.MagicMatchIsComplement := by
  intro h
  have hc := h.command.isLt
  rw [magicMatch, decide_eq_true_iff, ← BitVec.toNat_inj, BitVec.toNat_not]
  omega

/-! ## Messages and their bytes -/

@[simp] theorem header_instrOf (h : Header) (p : List Byte) : (instrOf h p).header = h := by
  rw [Instr.header, instrOf_command, instrOf_operands]
  rfl

/-- A header and as many payload bytes as it declares make a well-formed message (R60). -/
theorem instrOf_wellFormed {h : Header} {p : List Byte} (hp : p.length = h.length.toNat) :
    (instrOf h p).wellFormed = true := by
  have hm : (h.operands p).wellFormed = true := decide_eq_true hp
  rcases classify_cases h.command with ⟨-, hk⟩ | ⟨-, hk⟩ | ⟨-, hk⟩ | ⟨-, hk⟩ | ⟨-, hk⟩ | ⟨-, hk⟩ | ⟨hc, hk⟩
  case inr.inr.inr.inr.inr.inr => simp [instrOf, hk, Instr.wellFormed, hm, hc]
  all_goals simpa only [instrOf, hk, Instr.wellFormed] using hm

/-- The header and the declared payload of a whole message are its first `24 + length` bytes (R60). -/
theorem encodeHeader_append_payload {b : List Byte} {h : Header} (hd : hdrDecode b = .ok h) :
    encodeHeader h ++ slice b 24 (24 + h.length.toNat) = b.take (24 + h.length.toNat) := by
  rw [encodeHeader_of_hdrDecode hd, slice_add, ← List.take_add]

/-- The payload slice of a whole message has the declared length. -/
theorem payload_slice_length {b : List Byte} {n : Nat} (h : 24 + n ≤ b.length) : (slice b 24 (24 + n)).length = n := by
  rw [slice_length]
  omega

theorem hdrDecode_encode_append (i : Instr) (t : List Byte) : hdrDecode (encode i ++ t) = .ok i.header := by
  rw [encode, List.append_assoc]
  exact hdrDecode_encodeHeader_append _ _

theorem hdrDecode_encode (i : Instr) : hdrDecode (encode i) = .ok i.header := by
  simpa using hdrDecode_encode_append i []

theorem encode_length {i : Instr} (hw : i.wellFormed = true) : (encode i).length = 24 + i.operands.length.toNat :=
  (Laws.Encoding.shape hw).1

/-- Settles O13: the header of the encoding is the message's, the payload slice is the message's payload, and the two
select the message again. -/
theorem decodeOfEncode : Obligations.DecodeOfEncode := by
  intro i t hw
  have hlen : (encode i).length = 24 + i.header.length.toNat := encode_length hw
  have hpayload : slice (encode i ++ t) 24 (24 + i.header.length.toNat) = i.operands.payload := by
    rw [← hlen, slice, List.drop_append_of_le_length (by omega), (Laws.Encoding.shape hw).2.2,
      List.take_append_of_le_length (by rw [wellFormed_payload hw, encode_length hw]; omega),
      List.take_of_length_le (by rw [wellFormed_payload hw, encode_length hw]; omega)]
  rw [decode_of_hdr (hdrDecode_encode_append i t) (by rw [List.length_append]; omega), hpayload, instrOf_header hw]

theorem decode_encode {i : Instr} (hw : i.wellFormed = true) : decode (encode i) = .ok i := by
  simpa using decodeOfEncode i [] hw

/-- Settles O14: the message is the one its header and payload slice select, which serialise to the bytes read. -/
theorem encodeOfDecode : Obligations.EncodeOfDecode := by
  intro b i hdec
  obtain ⟨h, hd, hlen, rfl⟩ := decode_ok hdec
  refine ⟨instrOf_wellFormed (payload_slice_length hlen), ?_⟩
  rw [encode, header_instrOf, instrOf_operands]
  exact encodeHeader_append_payload hd

/-- Without a whole header the decoder asks for one. -/
theorem decode_short {b : List Byte} (h : b.length < 24) : decode b = .error (.insufficientData 24) := by
  rw [decode, hdrDecode_short h]

/-- Without the whole payload the decoder asks for the message's total. -/
theorem decode_short_payload {b : List Byte} {h : Header} (hd : hdrDecode b = .ok h)
    (hl : b.length < 24 + h.length.toNat) : decode b = .error (.insufficientData (messageTotal h.length)) := by
  simp [decode, hd, hl]

/-- Settles O15: 24 bytes have a header; then the decoder's test is on its length field. -/
theorem everyMessageDecodes : Obligations.EveryMessageDecodes := by
  refine ⟨fun b hb => decode_short hb, fun b hb => ?_⟩
  obtain ⟨h, hd⟩ := hdrDecode_isOk hb
  obtain ⟨-, hcommand, -⟩ := hdrDecode_ok hd
  refine ⟨h.length, messageTotal h.length, le32_length_of_hdrDecode hd, requiredLength_of_hdrDecode hd,
    fun hl => ?whole, decode_short_payload hd⟩
  case whole => exact ⟨_, decode_of_hdr hd hl, by rw [instrOf_command]; exact hcommand⟩

/-- Settles O17: the three words, decoded. -/
theorem exampleWordsDecode : Obligations.ExampleWordsDecode := ⟨by decide, by decide, by decide⟩

end Sys2Proof

namespace Sys2Proof.Machine

/-! ## DECODE -/

/-- The record of a header and its payload (R104 to R106). -/
def headerRecord (h : Header) (p : List Byte) : Record :=
  recordOf (classify h.command).code h.command (h.operands p)

/-- The class code of a header's row is the code CLASSIFY gives its command (R65, R103). -/
theorem instrClass_instrOf (h : Header) (p : List Byte) : instrClass (instrOf h p) = (classify h.command).code := by
  unfold instrOf
  split <;> simp only [instrClass, Command.code, *]

theorem instrRecord_instrOf (h : Header) (p : List Byte) : instrRecord (instrOf h p) = headerRecord h p := by
  rw [instrRecord, instrClass_instrOf, instrOf_command, instrOf_operands, headerRecord]

theorem decodeRecord_short {b : List Byte} (h : b.length < 24) : decodeRecord b = .error (.insufficientData 24) := by
  rw [decodeRecord, hdrDecode_short h]

theorem decodeRecord_short_payload {b : List Byte} {h : Header} (hd : hdrDecode b = .ok h)
    (hl : b.length < 24 + h.length.toNat) : decodeRecord b = .error (.insufficientData (messageTotal h.length)) := by
  simp [decodeRecord, hd, hl]

theorem decodeRecord_of_hdr {b : List Byte} {h : Header} (hd : hdrDecode b = .ok h)
    (hl : 24 + h.length.toNat ≤ b.length) :
    decodeRecord b = .ok (headerRecord h (slice b 24 (24 + h.length.toNat))) := by
  simp [decodeRecord, hd, Nat.not_lt.mpr hl, headerRecord, recordOf, Header.operands]

/-- What DECODE answered: there was a header with the whole payload behind it. -/
theorem decodeRecord_ok {b : List Byte} {r : Record} (hr : decodeRecord b = .ok r) :
    ∃ h, hdrDecode b = .ok h ∧ 24 + h.length.toNat ≤ b.length ∧
      r = headerRecord h (slice b 24 (24 + h.length.toNat)) := by
  rcases Nat.lt_or_ge b.length 24 with hb | hb
  · rw [decodeRecord_short hb] at hr
    cases hr
  · obtain ⟨h, hd⟩ := hdrDecode_isOk hb
    rcases Nat.lt_or_ge b.length (24 + h.length.toNat) with hl | hl
    · rw [decodeRecord_short_payload hd hl] at hr
      cases hr
    · rw [decodeRecord_of_hdr hd hl] at hr
      exact ⟨h, hd, hl, (Except.ok.inj hr).symm⟩

/-- Settles O8: the three cases of DECODE; the total of the second does not wrap. -/
theorem decodeRecordCases : Obligations.DecodeRecordCases :=
  ⟨fun _ hb => decodeRecord_short hb,
    fun _ h hd hl => ⟨messageTotal h.length, messageTotal_toNat _, decodeRecord_short_payload hd hl⟩,
    fun _ _ hd hl => decodeRecord_of_hdr hd hl⟩

/-- Settles O16: DECODE and the decoder have the same three cases, and in the last one message and record are made of
the same header and payload. -/
theorem decodeRecordIsRecordOfDecode : Obligations.DecodeRecordIsRecordOfDecode := by
  intro b
  rcases Nat.lt_or_ge b.length 24 with hb | hb
  · rw [decodeRecord_short hb, decode_short hb]
    rfl
  · obtain ⟨h, hd⟩ := hdrDecode_isOk hb
    rcases Nat.lt_or_ge b.length (24 + h.length.toNat) with hl | hl
    · rw [decodeRecord_short_payload hd hl, decode_short_payload hd hl]
      rfl
    · rw [decodeRecord_of_hdr hd hl, decode_of_hdr hd hl, ← instrRecord_instrOf]
      rfl

/-- CLASSIFY's code is nonzero exactly on the six tags (R109). -/
theorem code_classify_ne_zero (v : Word) : (classify v).code ≠ 0 ↔ v ∈ knownCommands := by
  rcases classify_cases v with ⟨rfl, -⟩ | ⟨rfl, -⟩ | ⟨rfl, -⟩ | ⟨rfl, -⟩ | ⟨rfl, -⟩ | ⟨rfl, -⟩ | ⟨hv, hk⟩
  case inr.inr.inr.inr.inr.inr => simp [hk, hv, Command.code]
  all_goals decide

/-- Class code 7 is never produced (R106). -/
theorem code_ne_seven (c : Command) : c.code ≠ 7 := by
  cases c <;> simp only [Command.code] <;> decide

/-- Settles O7: the class of a record is CLASSIFY's code of its command. -/
theorem recordClassMatchesCommand : Obligations.RecordClassMatchesCommand := by
  intro b r hr
  obtain ⟨h, hd, -, rfl⟩ := decodeRecord_ok hr
  obtain ⟨-, hcommand, -⟩ := hdrDecode_ok hd
  exact ⟨hcommand, code_classify_ne_zero _, rfl, code_ne_seven _⟩

/-- Settles O9: the record's payload is the slice behind the header, which with the serialised header spells the
message. -/
theorem recordHoldsTheMessageBytes : Obligations.RecordHoldsTheMessageBytes := by
  intro b r hr
  obtain ⟨h, hd, hlen, rfl⟩ := decodeRecord_ok hr
  exact ⟨payload_slice_length hlen, slice_add _ _ _, encodeHeader_append_payload hd⟩

/-- Settles O10: the total is `24 + length`, so the slice up to it is everything behind the header. -/
theorem handOffSplitsHeaderAndPayload : Obligations.HandOffSplitsHeaderAndPayload := by
  intro b total hreq hlen
  have hb : 24 ≤ b.length := by
    by_contra hc
    rw [requiredLength_short (by omega)] at hreq
    cases hreq
  obtain ⟨h, hd⟩ := hdrDecode_isOk hb
  obtain rfl : messageTotal h.length = total := Except.ok.inj ((requiredLength_of_hdrDecode hd).symm.trans hreq)
  rw [messageTotal_toNat] at hlen
  have hpayload : slice b 24 b.length = b.drop 24 := List.take_of_length_le (by rw [List.length_drop])
  refine ⟨slice_zero b 24, hpayload, ?joined, _, decodeRecord_of_hdr hd hlen.ge, ?inRecord⟩
  case joined => rw [onCompleteMessage, slice_zero, hpayload, List.take_append_drop]
  case inRecord => rw [← hlen]; rfl

/-- A header whose first 16 bytes are fixed has fixed fields but for the checksum and the magic. -/
theorem hdrDecode_checkFields {x : List Byte} (hx : x.length = 16) : ∃ h : Header, ∀ (k m : Word) (p : List Byte),
    hdrDecode (x ++ bytes32 k ++ bytes32 m ++ p) = .ok { h with crc32 := k, magic := m } := by
  obtain ⟨c, h0⟩ := le32_isSome (s := x) (off := 0) (by omega)
  obtain ⟨a0, h4⟩ := le32_isSome (s := x) (off := 4) (by omega)
  obtain ⟨a1, h8⟩ := le32_isSome (s := x) (off := 8) (by omega)
  obtain ⟨n, h12⟩ := le32_isSome (s := x) (off := 12) (by omega)
  refine ⟨⟨c, a0, a1, n, 0, 0⟩, fun k m p => ?_⟩
  have hk := le32_bytes32_at x k (bytes32 m ++ p)
  have hm := le32_bytes32_at (x ++ bytes32 k) m p
  rw [hx] at hk
  rw [List.length_append, hx, bytes32_length] at hm
  simp only [List.append_assoc] at hm ⊢
  apply hdrDecode_of_reads
  case h4 => exact hk
  case h5 => exact hm
  all_goals rwa [le32_append _ (by omega)]

/-- Settles O12: neither the length of the message nor its payload slice depends on the two fields. -/
theorem checkFieldsDecideNothing : Obligations.CheckFieldsDecideNothing := by
  intro x p k m k' m' r hx hr
  have hdrop (k m : Word) : (x ++ bytes32 k ++ bytes32 m ++ p).drop 24 = p := List.drop_left' (by simp [hx])
  have hlength (k m : Word) : (x ++ bytes32 k ++ bytes32 m ++ p).length = 24 + p.length := by simp [hx]; omega
  obtain ⟨h, hd⟩ := hdrDecode_checkFields hx
  obtain ⟨h', hd', hlen, rfl⟩ := decodeRecord_ok hr
  obtain rfl : { h with crc32 := k, magic := m } = h' := Except.ok.inj ((hd k m p).symm.trans hd')
  rw [hlength] at hlen
  refine ⟨rfl, rfl, ?_⟩
  rw [decodeRecord_of_hdr (hd k' m' p) (by rw [hlength]; exact hlen), slice_add, slice_add, hdrop, hdrop]
  rfl

end Sys2Proof.Machine

/-! # Proofs of the family other, part 2: one event and one message, in any state (R82 to R89, R115 to R122, R133) -/

namespace Sys2Proof.Machine

/-! ## The messages -/

/-- Settles O21: each of the six is the completion of its record. -/
theorem knownMessagesEmitTheirRecord : Obligations.KnownMessagesEmitTheirRecord := fun m _ h =>
  ⟨exec_within (i := .sync m) h, exec_within (i := .connect m) h, exec_within (i := .openMsg m) h,
    exec_within (i := .ready m) h, exec_within (i := .close m) h, exec_within (i := .write m) h⟩

/-- Settles O22: so is UNRECOGNIZED. -/
theorem unrecognizedMessageEmitsItsRecord : Obligations.UnrecognizedMessageEmitsItsRecord := fun c m _ h =>
  exec_within (i := .unrecognized c m) h

/-- Settles O23: the fault is the same for all seven messages. -/
theorem oversizeMessageTakesTheFault : Obligations.OversizeMessageTakesTheFault := fun _ _ h => exec_above h

/-- A message's meaning always answers a next state: the completion or the fault, by the cap (R115). -/
theorem exec_cases (i : Instr) (s : State) :
    (i.operands.length ≤ s.maxPayload ∧ exec i s = .next (completeMessage (instrRecord i) s)) ∨
    (s.maxPayload < i.operands.length ∧ exec i s = .next (raiseOversize i.operands.length s)) := by
  by_cases h : s.maxPayload < i.operands.length
  · exact .inr ⟨h, exec_above h⟩
  · exact .inl ⟨BitVec.not_lt.mp h, exec_within (BitVec.not_lt.mp h)⟩

/-- Settles O24: the frame of the completion and the frame of the fault. -/
theorem messageFrame : Obligations.MessageFrame := by
  intro i s t hexec
  rcases exec_cases i s with ⟨hle, hi⟩ | ⟨hlt, hi⟩
  all_goals
    rw [hi] at hexec
    cases hexec
    refine ⟨rfl, rfl, rfl, rfl, ?_, ?_⟩
  · exact fun _ => ⟨rfl, rfl, rfl, rfl, fun off => Memory.read_nil off⟩
  · exact fun hlt => absurd hlt (BitVec.not_lt.mpr hle)
  · exact fun hle => absurd hlt (BitVec.not_lt.mpr hle)
  · exact fun _ => ⟨rfl, rfl, rfl, fun _ => rfl⟩

/-! ## Refusal -/

theorem completionCheck_ne_refused (s : State) (r : Refusal) : completionCheck s ≠ .refused r := by
  unfold completionCheck
  split
  · simp
  · split
    · split
      · rename_i i _
        rcases exec_cases i s with ⟨-, h⟩ | ⟨-, h⟩ <;> simp [h]
      · simp
    · simp

theorem headerCheck_ne_refused (s : State) (r : Refusal) : headerCheck s ≠ .refused r := by
  unfold headerCheck
  split
  · split
    · split
      · simp
      · exact completionCheck_ne_refused _ r
    · simp
  · exact completionCheck_ne_refused _ r

/-- PUSH_BYTE refuses only before the first RESET and while the fault is latched (R13). -/
theorem dead_or_faulted_of_refused {b : Byte} {s : State} {r : Refusal} (h : pushByte b s = .refused r) :
    s.live = false ∨ s.fault = true := by
  by_contra hc
  obtain ⟨hl, hf⟩ : s.live = true ∧ s.fault = false := by simpa using hc
  rcases Nat.lt_or_ge s.fill.toNat s.capacity with hcap | hcap
  · rw [pushByte_accepts hl hf hcap] at h
    exact headerCheck_ne_refused _ r h
  · simp [pushByte, hl, hf, memAppend, Nat.not_lt.mpr hcap, andThen] at h

/-- A block that refuses bytes leaves the whole chunk with the host (R137). -/
theorem pushChunk_refuses {s : State} (h : s.live = false ∨ s.fault = true) (c : List Byte) :
    pushChunk c s = .next ⟨s, c⟩ := by
  cases c with
  | nil => rfl
  | cons b bs => rcases pushByte_refuses (b := b) h with hb | hb <;> simp only [pushChunk, hb]

/-- Settles O25: PUSH_BYTE's guards are its only refusals, and they do not depend on the byte. -/
theorem bytesAreRefusedExactlyWhenDeadOrFaulted : Obligations.BytesAreRefusedExactlyWhenDeadOrFaulted :=
  ⟨fun _ _ => ⟨fun ⟨_, h⟩ => dead_or_faulted_of_refused h,
    fun h => (pushByte_refuses h).elim (fun hb => ⟨_, hb⟩) (fun hb => ⟨_, hb⟩)⟩,
    fun c _ h => pushChunk_refuses h c⟩

/-! ## What one byte can do, in any state -/

/-- Part 3 of PUSH_BYTE waits, takes the fault or completes a message. -/
theorem completionCheck_shape {s t : State} (h : completionCheck s = .next t) :
    t = s ∨ (∃ len, s.maxPayload < len ∧ t = raiseOversize len s) ∨ ∃ r, t = completeMessage r s := by
  rcases completionCheck_next h with ⟨ht, -⟩ | ⟨i, -, -, hexec⟩
  · exact .inl ht
  · rcases exec_cases i s with ⟨-, hi⟩ | ⟨hlt, hi⟩ <;> rw [hi] at hexec <;> cases hexec
    · exact .inr (.inr ⟨_, rfl⟩)
    · exact .inr (.inl ⟨_, hlt, rfl⟩)

/-- PUSH_BYTE accepts the byte, may set the marker, and then stops there, takes the fault or completes a message. -/
theorem pushByte_shape {b : Byte} {s t : State} (h : pushByte b s = .next t) :
    ∃ u, (u = acceptByte b s ∨ ∃ v, u = setExpected v (acceptByte b s)) ∧
      (t = u ∨ (∃ len, s.maxPayload < len ∧ t = raiseOversize len u) ∨ ∃ r, t = completeMessage r u) := by
  obtain ⟨-, -, -, ⟨len, -, -, hlt, ht⟩ | ⟨len, -, -, -, hc⟩ | ⟨-, hc⟩⟩ := pushByte_next h
  · exact ⟨_, .inl rfl, .inr (.inl ⟨len, hlt, ht⟩)⟩
  · exact ⟨_, .inr ⟨_, rfl⟩, completionCheck_shape hc⟩
  · exact ⟨_, .inl rfl, completionCheck_shape hc⟩

/-- What PUSH_BYTE keeps, and what it adds: at most one record, and none with the fault. -/
theorem pushByte_frame {b : Byte} {s t : State} (h : pushByte b s = .next t) :
    t.maxPayload = s.maxPayload ∧ t.live = s.live ∧ t.input = s.input ∧
      ∃ rs : List Record, rs.length ≤ 1 ∧ t.out = s.out ++ rs ∧ (t.fault = true → rs = []) := by
  obtain ⟨-, hf, -⟩ := pushByte_next h
  obtain ⟨u, rfl | ⟨v, rfl⟩, rfl | ⟨len, -, rfl⟩ | ⟨r, rfl⟩⟩ := pushByte_shape h
  case inl.inr.inr | inr.inr.inr => exact ⟨rfl, rfl, rfl, [r], by simp, rfl, by simp [hf]⟩
  all_goals exact ⟨rfl, rfl, rfl, [], by simp, by simp, by simp⟩

/-- Only a live block takes a byte, and it stays live. -/
theorem live_of_pushByte {b : Byte} {s t : State} (h : pushByte b s = .next t) : t.live = true := by
  obtain ⟨-, hlive, -⟩ := pushByte_frame h
  exact hlive.trans (pushByte_next h).1

/-- The fault is raised by a length above the cap, and by nothing else (R133). -/
theorem exists_above_cap_of_fault {b : Byte} {s t : State} (h : pushByte b s = .next t) (ht : t.fault = true) :
    ∃ len, s.maxPayload < len := by
  obtain ⟨-, hf, -⟩ := pushByte_next h
  obtain ⟨u, rfl | ⟨v, rfl⟩, rfl | ⟨len, hlt, -⟩ | ⟨r, rfl⟩⟩ := pushByte_shape h
  case inl.inr.inl | inr.inr.inl => exact ⟨len, hlt⟩
  all_goals simp [hf] at ht

/-! ## One step -/

section
variable {s : State} {es : List Event}

theorem step_of_no_event (h : s.input = []) : step s = .next s := by simp only [step, takeNext, h]

theorem step_of_event {e : Event} (h : s.input = e :: es) : step s = takeEvent e { s with input := es } := by
  simp only [step, takeNext, h]

/-- The next byte of a chunk is taken; the rest of the chunk stays first in line. -/
theorem step_of_push {b : Byte} {bs : List Byte} (h : s.input = .push (b :: bs) :: es) :
    step s = pushByte b { s with input := chunkRest bs es } := step_of_event h

end

/-- Settles O39: the step on each shape of the host's list. -/
theorem stepTakesTheOldestEvent : Obligations.StepTakesTheOldestEvent := fun _ _ =>
  ⟨step_of_no_event, step_of_event, fun _ => step_of_event, step_of_event, fun _ => step_of_push,
    fun _ _ _ => step_of_push⟩

/-- Settles O35: the reset state's fields, and its views with no byte in the buffer. -/
theorem resetGivesTheResetValues : Obligations.ResetGivesTheResetValues := fun _ =>
  ⟨rfl, fun _ => by simp [State.x], rfl, rfl, rfl⟩

/-- Settles O36: an accepted byte needs a live, un-faulted block, so the step waited, was RESET, or took an empty
chunk. -/
theorem onlyResetRevivesTheBlock : Obligations.OnlyResetRevivesTheBlock := by
  intro s t hdead hstep
  rcases step_next hstep with ⟨-, rfl⟩ | hreset | ⟨es, -, rfl⟩ | ⟨_, b, es, -, -, es', hb⟩
  · exact .inr rfl
  · exact .inl hreset
  · exact .inr rfl
  · obtain ⟨hl, hf, -⟩ := pushByte_next hb
    rcases hdead with h | h
    · exact absurd (hl.symm.trans h) (by decide)
    · exact absurd (hf.symm.trans h) (by decide)

/-- Settles O45: by the frame of PUSH_BYTE; every other step keeps the records or is RESET. -/
theorem recordsAreOnlyAppended : Obligations.RecordsAreOnlyAppended := by
  intro s t hstep
  rcases step_next hstep with ⟨-, rfl⟩ | ⟨es, hin, rfl⟩ | ⟨es, -, rfl⟩ | ⟨_, b, es, -, -, es', hb⟩
  · exact ⟨rfl, id, .inr ⟨[], by simp, by simp, fun _ _ => rfl⟩⟩
  · exact ⟨rfl, fun _ => rfl, .inl ⟨es, hin⟩⟩
  · exact ⟨rfl, id, .inr ⟨[], by simp, by simp, fun _ _ => rfl⟩⟩
  · obtain ⟨hcap, hlive, -, rs, hrs, hout, hfault⟩ := pushByte_frame hb
    exact ⟨hcap, fun hl => hlive.trans hl, .inr ⟨rs, hrs, hout, fun _ => hfault⟩⟩

/-- Settles O34: no length is above the cap 2^32 - 1. -/
theorem noCapMeansNoFault : Obligations.NoCapMeansNoFault := by
  intro s t hcap hf hstep
  rcases step_next hstep with ⟨-, rfl⟩ | ⟨es, -, rfl⟩ | ⟨es, -, rfl⟩ | ⟨_, b, es, -, -, es', hb⟩
  · exact hf
  · rfl
  · exact hf
  · rw [← Bool.not_eq_true]
    intro ht
    obtain ⟨len, hlt⟩ : ∃ len, s.maxPayload < len :=
      exists_above_cap_of_fault (s := { s with input := es' }) hb ht
    rw [hcap] at hlt
    bv_omega

/-- Settles O52: only entry `k` of the list is replaced, and by its own step. -/
theorem instancesAreIndependent : Obligations.InstancesAreIndependent := by
  intro k insts after h
  unfold stepInstance at h
  split at h
  · rename_i hk
    cases h
    exact ⟨fun _ _ => rfl, rfl, fun s hs => absurd (hk.symm.trans hs) (by simp)⟩
  · rename_i s hk
    split at h
    · rename_i t hstep
      cases h
      refine ⟨fun j hj => List.getElem?_set_ne (Ne.symm hj), List.length_set, fun s' hs' => ⟨t, ?_, ?_⟩⟩
      · rwa [← Option.some.inj (hk.symm.trans hs')]
      · exact List.getElem?_set_self (List.getElem?_eq_some_iff.mp hk).1
    · cases h
    · cases h

/-! ## Chunks -/

/-- A byte that is taken is followed by the rest of its chunk. -/
theorem pushChunk_cons_of_next {b : Byte} {bs : List Byte} {s t : State} (h : pushByte b s = .next t) :
    pushChunk (b :: bs) s = pushChunk bs t := by simp only [pushChunk, h]

/-- Everything delivering a nonempty chunk can do: take the first byte and go on, or be refused as a whole. -/
theorem pushChunk_cons_next {b : Byte} {bs : List Byte} {s : State} {d : Delivery}
    (h : pushChunk (b :: bs) s = .next d) :
    (∃ t, pushByte b s = .next t ∧ pushChunk bs t = .next d) ∨
    ((s.live = false ∨ s.fault = true) ∧ d = ⟨s, b :: bs⟩) := by
  rw [pushChunk] at h
  split at h
  · exact .inl ⟨_, ‹_›, h⟩
  · cases h
  · cases h
    exact .inr ⟨dead_or_faulted_of_refused ‹_›, rfl⟩

theorem pushChunks_singleton (c : List Byte) (s : State) : pushChunks [c] s = pushChunk c s := by
  simp only [pushChunks, List.append_nil]
  cases pushChunk c s <;> rfl

/-- A chunk cut in two is its parts, one after the other (R87): a part that is refused is refused with all that
follows. -/
theorem pushChunk_append (c d : List Byte) (s : State) : pushChunk (c ++ d) s = pushChunks [c, d] s := by
  induction c generalizing s with
  | nil =>
    rw [List.nil_append, ← pushChunks_singleton d, pushChunks.eq_def [[], d]]
    simp only [pushChunk, List.nil_append]
    cases pushChunks [d] s <;> rfl
  | cons b c ih =>
    cases hb : pushByte b s with
    | next t =>
      rw [List.cons_append, pushChunk_cons_of_next hb, ih]
      simp only [pushChunks, pushChunk_cons_of_next hb]
    | fault r => simp only [List.cons_append, pushChunks, pushChunk, hb]
    | refused r =>
      have hs := dead_or_faulted_of_refused hb
      simp only [pushChunks, pushChunk_refuses hs, List.append_nil]

/-- Chunks delivered in order are their bytes delivered in order (R93). -/
theorem pushChunks_eq_pushChunk_flatten (cs : List (List Byte)) (s : State) :
    pushChunks cs s = pushChunk cs.flatten s := by
  induction cs generalizing s with
  | nil => rfl
  | cons c cs ih =>
    rw [List.flatten_cons, pushChunk_append, pushChunks, pushChunks]
    simp only [ih, pushChunks_singleton]

/-- Settles O46: both cuttings are the delivery of their common bytes. -/
theorem fragmentationIndependence : Obligations.FragmentationIndependence := fun cs ds s h => by
  rw [pushChunks_eq_pushChunk_flatten, pushChunks_eq_pushChunk_flatten, h]

/-! ## What the framer never reads: the ghosts and the host's further events -/

/-- `s` with other records, another byte count and other events to come. -/
def State.withHistory (o : List Record) (n : Nat) (es : List Event) (s : State) : State :=
  { s with out := o, consumed := n, input := es }

theorem completionCheck_withHistory {s t : State} (h : completionCheck s = .next t) :
    ∃ rs, t.out = s.out ++ rs ∧ t.consumed = s.consumed ∧ t.input = s.input ∧ ∀ o n es,
      completionCheck (s.withHistory o n es) = .next (t.withHistory (o ++ rs) n es) := by
  rcases completionCheck_next h with ⟨rfl, hwait⟩ | ⟨i, hexp, hdec, hexec⟩
  · refine ⟨[], by simp, rfl, rfl, fun o n es => ?_⟩
    rw [List.append_nil]
    exact completionCheck_waits hwait
  · have run (o n es) : completionCheck (s.withHistory o n es) = exec i (s.withHistory o n es) :=
      completionCheck_executes hexp hdec
    rcases exec_cases i s with ⟨hle, hi⟩ | ⟨hlt, hi⟩ <;> rw [hi] at hexec <;> cases hexec
    · exact ⟨[instrRecord i], rfl, rfl, rfl, fun o n es => (run o n es).trans (exec_within hle)⟩
    · refine ⟨[], by simp, rfl, rfl, fun o n es => ?_⟩
      rw [List.append_nil]
      exact (run o n es).trans (exec_above hlt)

/-- PUSH_BYTE does the same to every history: it appends the same records and counts one byte. -/
theorem pushByte_withHistory {b : Byte} {s t : State} (h : pushByte b s = .next t) :
    ∃ rs, t.out = s.out ++ rs ∧ t.consumed = s.consumed + 1 ∧ t.input = s.input ∧ ∀ o n es,
      pushByte b (s.withHistory o n es) = .next (t.withHistory (o ++ rs) (n + 1) es) := by
  obtain ⟨hl, hf, hcap, hcases⟩ := pushByte_next h
  have accepts (o n es) :
      pushByte b (s.withHistory o n es) = headerCheck ((acceptByte b s).withHistory o (n + 1) es) :=
    pushByte_accepts hl hf hcap
  rcases hcases with ⟨len, h24, hx, hlt, rfl⟩ | ⟨len, h24, hx, hle, hc⟩ | ⟨h24, hc⟩
  · refine ⟨[], by simp, rfl, rfl, fun o n es => ?_⟩
    rw [List.append_nil]
    exact (accepts o n es).trans (headerCheck_oversize h24 hx hlt)
  · obtain ⟨rs, hout, hconsumed, hinput, hrun⟩ := completionCheck_withHistory hc
    exact ⟨rs, hout, hconsumed, hinput, fun o n es =>
      ((accepts o n es).trans (headerCheck_within h24 hx hle)).trans (hrun o (n + 1) es)⟩
  · obtain ⟨rs, hout, hconsumed, hinput, hrun⟩ := completionCheck_withHistory hc
    exact ⟨rs, hout, hconsumed, hinput, fun o n es =>
      ((accepts o n es).trans (headerCheck_elsewhere h24)).trans (hrun o (n + 1) es)⟩

/-- Settles O51: by induction over the chunk, since each accepted byte does the same to every history and refusal does
not read it. -/
theorem historyDecidesNothing : Obligations.HistoryDecidesNothing := by
  intro c
  induction c with
  | nil =>
    intro s t left o n h
    cases h
    exact ⟨[], 0, by simp, rfl, by simp [pushChunk]⟩
  | cons b bs ih =>
    intro s t left o n h
    rcases pushChunk_cons_next h with ⟨u, hb, hbs⟩ | ⟨hdead, hd⟩
    · obtain ⟨rs, hout, hconsumed, hinput, hrun⟩ := pushByte_withHistory hb
      obtain ⟨rs', k, hout', hconsumed', hrun'⟩ := ih u t left (o ++ rs) (n + 1) hbs
      refine ⟨rs ++ rs', 1 + k, ?_, ?_, ?_⟩
      · rw [hout', hout, List.append_assoc]
      · rw [hconsumed', hconsumed, Nat.add_assoc]
      · have hfirst : pushByte b { s with out := o, consumed := n } =
            .next { u with out := o ++ rs, consumed := n + 1 } := (hrun o n s.input).trans (by rw [← hinput]; rfl)
        rw [pushChunk_cons_of_next hfirst, hrun', List.append_assoc, Nat.add_assoc]
    · cases hd
      exact ⟨[], 0, by simp, rfl, by
        rw [List.append_nil]
        exact pushChunk_refuses (s := { s with out := o, consumed := n }) hdead _⟩

/-- A byte taken with other events to come leaves the same state with those events. -/
theorem pushByte_withInput {b : Byte} {s t : State} (es : List Event) (h : pushByte b s = .next t) :
    pushByte b { s with input := es } = .next { t with input := es } := by
  obtain ⟨rs, hout, hconsumed, -, hrun⟩ := pushByte_withHistory h
  exact (hrun s.out s.consumed es).trans (by rw [← hout, ← hconsumed]; rfl)

/-- Settles O47: by induction over the chunk; after each step the rest of the chunk stands first in the list. -/
theorem chunkEventRunsByteByByte : Obligations.ChunkEventRunsByteByByte := by
  intro c es
  induction c with
  | nil => exact fun s t hne => absurd rfl hne
  | cons b bs ih =>
    intro s t _ hin hc
    rcases pushChunk_cons_next hc with ⟨u, hb, hbs⟩ | ⟨-, hd⟩
    · have hinput : { u with input := es } = u := by
        obtain ⟨-, -, hu, -⟩ := pushByte_frame hb
        rw [show es = u.input from hu.symm]
      have hstep : step s = .next { u with input := chunkRest bs es } :=
        (step_of_push hin).trans (pushByte_withInput (s := { s with input := es }) _ hb)
      rw [List.length_cons, run_succ_of_next hstep]
      cases bs with
      | nil =>
        cases hbs
        exact congrArg _ hinput
      | cons b' bs => exact ih _ t (by simp) rfl (by rw [← hbs, ← hinput])
    · cases hd

end Sys2Proof.Machine

/-! # Proofs of the family other, part 3: the framing invariant and the transitions of one accepted byte (R34, R83 to
R85) -/

namespace Sys2Proof.Machine

/-! ## The buffer of a framed state -/

/-- Settles O18: below `fill` the storage holds the byte sequence, and the reads test against `fill`. -/
theorem memReadFollowsTheBuffer : Obligations.MemReadFollowsTheBuffer := by
  intro s off hs
  have hlen : s.buf.bytes.length = s.fill.toNat := by rw [Memory.bytes_length, hs.fill_eq]
  refine ⟨fun h => ?byte, fun h => if_neg (by omega), fun h => ?word, fun h => if_neg (by omega)⟩
  case byte =>
    have hread : memRead8 off s = s.buf.bytes[off]? := (if_pos h).trans (Memory.read_of_dense hs.dense off)
    exact ⟨hread, _, hread.trans (List.getElem?_eq_getElem (by omega))⟩
  case word =>
    have hread : memRead32 off s = le32 s.buf.bytes off := memRead32_of_dense hs.dense hs.fill_eq h
    obtain ⟨w, hw⟩ := le32_isSome (s := s.buf.bytes) (off := off) (by omega)
    exact ⟨hread, w, hread.trans hw⟩

/-- Settles O20: below 24 the view tests `fill`; from 24 on it is LE32 of the byte sequence. -/
theorem headerViewsAliasTheBuffer : Obligations.HeaderViewsAliasTheBuffer :=
  ⟨fun _ _ h => if_pos h, fun _ i hs h => State.x_of_dense i hs.dense hs.fill_eq h⟩

/-- The position counter does not wrap below the capacity (R24). -/
theorem fill_succ_toNat {s : State} (h : s.fill.toNat < s.capacity) : (s.fill + 1).toNat = s.fill.toNat + 1 := by
  have hcap := s.maxPayload.isLt
  rw [State.capacity] at h
  have h1 : (1 : Offset).toNat = 1 := rfl
  rw [BitVec.toNat_add, h1]
  omega

/-- The append of R42, on the storage of a framed state. -/
theorem State.Framed.write_fill {s : State} (hs : s.Framed) (b : Byte) :
    s.buf.write s.fill.toNat b = Memory.ofBytes (s.buf.bytes ++ [b]) :=
  Memory.write_append b hs.dense hs.fill_eq

/-- Settles O19: the append is a write at the end of the byte sequence. -/
theorem appendStoresAtFill : Obligations.AppendStoresAtFill := by
  intro b s hs hfill
  refine ⟨if_pos hfill, fill_succ_toNat hfill, ?_, ?_, fun off hoff => ?_⟩
  · rw [hs.write_fill, Memory.bytes_ofBytes]
  · rw [Memory.read_write, if_pos rfl]
  · rw [Memory.read_write, if_neg hoff]

/-! ## A message in progress -/

/-- `p` is what stands in the buffer between events (R34 (b), (c)): once it has a header, the cap allows the length and
a byte of the payload is missing. -/
def InProgress (cap : Word) (p : List Byte) : Prop :=
  ∀ h, hdrDecode p = .ok h → h.length ≤ cap ∧ p.length < 24 + h.length.toNat

theorem InProgress.of_short {cap : Word} {p : List Byte} (hp : p.length < 24) : InProgress cap p := fun _ hd =>
  absurd (length_of_hdrDecode hd) (by omega)

theorem markerOf_of_short {p : List Byte} (h : p.length < 24) : markerOf p = none := by
  rw [markerOf, requiredLength_short h]

theorem markerOf_of_hdr {p : List Byte} {h : Header} (hd : hdrDecode p = .ok h) :
    markerOf p = some (messageTotal h.length) := by
  rw [markerOf, requiredLength_of_hdrDecode hd]

/-- View 3 of a buffer whose header decodes is the header's length (R22). -/
theorem x_three_of_hdr {s : State} {h : Header} (hdense : s.buf.dense) (hfill : s.fill.toNat = s.buf.length)
    (hd : hdrDecode s.buf.bytes = .ok h) : s.x 3 = .ok h.length := by
  have hlen := length_of_hdrDecode hd
  rw [Memory.bytes_length] at hlen
  obtain ⟨w, hx, hw⟩ := State.x_of_dense 3 hdense hfill (by omega)
  rw [hx, Option.some.inj (hw.symm.trans (le32_length_of_hdrDecode hd))]

section
variable {s : State} (hs : s.Framed)
include hs

theorem State.Framed.bytes_length_eq : s.buf.bytes.length = s.fill.toNat := by rw [Memory.bytes_length, hs.fill_eq]

/-- In phase PAYLOAD the buffer holds a header within the cap, and the marker is its total (R34 (c)). -/
theorem State.Framed.header_of_expected (hf : s.fault = false) {v : Offset} (hv : s.expected = some v) :
    ∃ h, hdrDecode s.buf.bytes = .ok h ∧ v = messageTotal h.length ∧ h.length ≤ s.maxPayload ∧ 24 ≤ s.fill.toNat ∧
      s.fill.toNat < 24 + h.length.toNat := by
  obtain ⟨len, hx, rfl, hcap, h24, hlt⟩ := hs.payload hf v hv
  obtain ⟨h, hd⟩ := hdrDecode_isOk (b := s.buf.bytes) (by rw [hs.bytes_length_eq]; exact h24)
  obtain rfl : h.length = len := Except.ok.inj ((x_three_of_hdr hs.dense hs.fill_eq hd).symm.trans hx)
  exact ⟨h, hd, rfl, hcap, h24, by rwa [messageTotal_toNat] at hlt⟩

/-- An un-faulted block between events holds a message in progress, and the marker that goes with it. -/
theorem State.Framed.progress (hf : s.fault = false) :
    s.expected = markerOf s.buf.bytes ∧ InProgress s.maxPayload s.buf.bytes := by
  cases hv : s.expected with
  | none =>
    have hshort : s.buf.bytes.length < 24 := by
      have := hs.header hf hv
      rw [hs.bytes_length_eq]
      omega
    exact ⟨(markerOf_of_short hshort).symm, .of_short hshort⟩
  | some v =>
    obtain ⟨h, hd, rfl, hcap, -, hlt⟩ := hs.header_of_expected hf hv
    refine ⟨(markerOf_of_hdr hd).symm, fun h' hd' => ?_⟩
    obtain rfl : h = h' := Except.ok.inj (hd.symm.trans hd')
    exact ⟨hcap, by rwa [hs.bytes_length_eq]⟩

/-- While the header is incomplete there is no marker (R26). -/
theorem State.Framed.expected_of_short (hf : s.fault = false) (h : s.fill.toNat < 24) : s.expected = none := by
  rw [(hs.progress hf).1, markerOf_of_short (by rwa [hs.bytes_length_eq])]

/-- Between events an un-faulted block has room for a byte (R24, R42). -/
theorem State.Framed.fill_lt_capacity (hf : s.fault = false) : s.fill.toNat < s.capacity := by
  rw [State.capacity]
  rcases Nat.lt_or_ge s.fill.toNat 24 with h | h
  · omega
  · obtain ⟨h, hd⟩ := hdrDecode_isOk (b := s.buf.bytes) (by rwa [hs.bytes_length_eq])
    obtain ⟨hcap, hlt⟩ := (hs.progress hf).2 h hd
    rw [hs.bytes_length_eq] at hlt
    rw [BitVec.le_def] at hcap
    omega

end

/-- The invariant from a message in progress: how every un-faulted state is shown to be framed. -/
theorem State.framed_of_inProgress {s : State} (hdense : s.buf.dense) (hfill : s.fill.toNat = s.buf.length)
    (hexp : s.expected = markerOf s.buf.bytes) (hp : InProgress s.maxPayload s.buf.bytes) (hf : s.fault = false)
    (hclean : s.faultCause = 0 ∧ s.faultInfo = 0) (hcounted : s.consumed = s.fill.toNat + recordBytes s.out) :
    s.Framed := by
  have hlen : s.buf.bytes.length = s.fill.toNat := by rw [Memory.bytes_length, hfill]
  refine ⟨hdense, hfill, fun _ hnone => ?header, fun _ v hv => ?payload,
    fun ht => absurd (hf.symm.trans ht) (by decide), fun _ => hclean, hcounted⟩
  case header =>
    by_contra hc
    obtain ⟨h, hd⟩ := hdrDecode_isOk (b := s.buf.bytes) (by omega)
    rw [hexp, markerOf_of_hdr hd] at hnone
    cases hnone
  case payload =>
    rcases Nat.lt_or_ge s.buf.bytes.length 24 with h24 | h24
    · rw [hexp, markerOf_of_short h24] at hv
      cases hv
    · obtain ⟨h, hd⟩ := hdrDecode_isOk h24
      rw [hexp, markerOf_of_hdr hd] at hv
      cases hv
      obtain ⟨hcap, hlt⟩ := hp h hd
      exact ⟨h.length, x_three_of_hdr hdense hfill hd, rfl, hcap, by omega, by rw [messageTotal_toNat]; omega⟩

/-- The reset state is framed: the empty buffer is a message in progress. -/
theorem afterReset_framed (cap : Word) (es : List Event) : (State.afterReset cap es).Framed :=
  State.framed_of_inProgress rfl rfl rfl (.of_short (by simp)) rfl ⟨rfl, rfl⟩ rfl

/-- A framed state satisfies the invariant. -/
theorem State.Framed.inv {s : State} (hs : s.Framed) : s.Inv := ⟨Memory.wf_of_dense hs.dense, fun _ => hs⟩

/-- Settles O42: the reset state is framed. -/
theorem resetSatisfiesTheInvariant : Obligations.ResetSatisfiesTheInvariant :=
  ⟨fun cap es => (afterReset_framed cap es).inv, (afterReset_framed _ _).inv⟩

/-- Settles O38: the bounds of an un-faulted and of a faulted framed state. -/
theorem bufferBoundAndCauseCodes : Obligations.BufferBoundAndCauseCodes := by
  intro s hinv hl
  have hs := hinv.framed hl
  have hbound (hf : s.fault = false) : s.fill.toNat < 24 + s.maxPayload.toNat := hs.fill_lt_capacity hf
  refine ⟨?_, fun hf => ⟨hbound hf, (hs.clean hf).1⟩, fun hf => ?_⟩
  · rw [hs.bytes_length_eq]
    cases hf : s.fault with
    | false => exact (hbound hf).le
    | true =>
      rw [(hs.faulted hf).1]
      exact Nat.le_add_right 24 _
  · obtain ⟨hfill, -, hcause, -, hinfo⟩ := hs.faulted hf
    exact ⟨hfill, hcause, hinfo⟩

/-! ## The status by phase -/

section
variable {s : State}

theorem phase_of_fault (hf : s.fault = true) : s.phase = .fault := by rw [State.phase, if_pos hf]

theorem phase_of_header (hf : s.fault = false) (he : s.expected = none) : s.phase = .header := by
  simp [State.phase, hf, he]

theorem phase_of_payload (hf : s.fault = false) {v : Offset} (he : s.expected = some v) : s.phase = .payload := by
  simp [State.phase, hf, he]

theorem status_of_fault (hf : s.fault = true) : s.needTotal = 0 ∧ s.status = .fault s.faultCause s.faultInfo := by
  simp [State.needTotal, State.status, hf]

theorem status_of_header (hf : s.fault = false) (he : s.expected = none) :
    s.needTotal = 24 ∧ s.status = .insufficientData 24 := by
  simp [State.needTotal, State.status, hf, he]

theorem status_of_payload {v : Offset} (hf : s.fault = false) (he : s.expected = some v) :
    s.needTotal = v ∧ s.status = .insufficientData v := by
  simp [State.needTotal, State.status, hf, he]

end

/-- Settles O37: the status by phase; what is missing between events is R34 (b) and (c). -/
theorem statusQueryByPhase : Obligations.StatusQueryByPhase := by
  intro s
  refine ⟨rfl, status_of_fault, status_of_header, fun v => status_of_payload, fun hinv hl hf => ?_⟩
  have hs := hinv.framed hl
  cases he : s.expected with
  | none =>
    obtain ⟨hneed, hstatus⟩ := status_of_header hf he
    have hfill : s.fill.toNat ≤ 23 := hs.header hf he
    rw [hneed, hstatus]
    exact ⟨rfl, Nat.lt_succ_of_le hfill⟩
  | some v =>
    obtain ⟨hneed, hstatus⟩ := status_of_payload hf he
    obtain ⟨-, -, -, -, -, hlt⟩ := hs.payload hf v he
    rw [hneed, hstatus]
    exact ⟨rfl, hlt⟩

/-! ## A message and its record -/

/-- A record made of a message serialises to the message's encoding (R71). -/
theorem instrRecord_wire (i : Instr) : (instrRecord i).wire = encode i := rfl

/-- The class code of a well-formed message's row is the code of its command (R65). -/
theorem instrClass_eq_code {i : Instr} (hw : i.wellFormed = true) : instrClass i = (classify i.command).code := by
  rw [← instrOf_header hw, instrClass_instrOf, instrOf_command]

/-- A well-formed message within the cap makes a sound record (R105, R109). -/
theorem instrRecord_sound {i : Instr} {cap : Word} (hw : i.wellFormed = true) (hcap : i.operands.length ≤ cap) :
    (instrRecord i).Sound cap := ⟨wellFormed_payload hw, hcap, instrClass_eq_code hw⟩

/-- DECODE on a message's encoding and whatever follows (D19). -/
theorem decodeRecord_encode_append {i : Instr} (hw : i.wellFormed = true) (t : List Byte) :
    decodeRecord (encode i ++ t) = .ok (instrRecord i) := by
  rw [decodeRecordIsRecordOfDecode, decodeOfEncode i t hw]
  rfl

theorem decodeRecord_encode {i : Instr} (hw : i.wellFormed = true) : decodeRecord (encode i) = .ok (instrRecord i) := by
  simpa using decodeRecord_encode_append hw []

/-- Bytes that begin with a header and hold the payload it declares begin with a message. -/
theorem exists_message {b : List Byte} {h : Header} (hd : hdrDecode b = .ok h) (hl : 24 + h.length.toNat ≤ b.length) :
    ∃ i, i.wellFormed = true ∧ i.operands.length = h.length ∧ encode i = b.take (24 + h.length.toNat) := by
  obtain ⟨hw, henc⟩ := encodeOfDecode b _ (decode_of_hdr hd hl)
  rw [instrOf_operands] at henc
  exact ⟨_, hw, by rw [instrOf_operands]; rfl, henc⟩

/-! ## PUSH_BYTE in a live un-faulted framed state

`s.buf.bytes ++ [b]` is the message so far, with the byte just accepted. -/

/-- The step of an accepted byte, by what the message so far is. -/
inductive Transition (b : Byte) (s : State) : State → Prop
  /-- the header is still incomplete -/
  | headerByte (hfill : s.fill.toNat < 23) : Transition b s (acceptByte b s)
  /-- the header is complete and its length above the cap -/
  | oversize (h : Header) (hd : hdrDecode (s.buf.bytes ++ [b]) = .ok h) (hfill : s.fill.toNat = 23)
      (hcap : s.maxPayload < h.length) : Transition b s (raiseOversize h.length (acceptByte b s))
  /-- the header is complete and a payload byte missing -/
  | waits (h : Header) (hd : hdrDecode (s.buf.bytes ++ [b]) = .ok h) (hcap : h.length ≤ s.maxPayload)
      (hfill : s.fill.toNat + 1 < 24 + h.length.toNat) :
      Transition b s (setExpected (messageTotal h.length) (acceptByte b s))
  /-- the message is complete -/
  | completes (i : Instr) (hw : i.wellFormed = true) (henc : encode i = s.buf.bytes ++ [b])
      (hcap : i.operands.length ≤ s.maxPayload) : Transition b s (completeMessage (instrRecord i) (acceptByte b s))

theorem setExpected_of_eq {s : State} {v : Offset} (h : s.expected = some v) : setExpected v s = s := by
  rw [setExpected, ← h]

section
variable {b : Byte} {s : State} (hs : s.Framed)
include hs

theorem State.Framed.acceptByte_bytes : (acceptByte b s).buf.bytes = s.buf.bytes ++ [b] := by
  rw [acceptByte_buf, hs.write_fill, Memory.bytes_ofBytes]

theorem State.Framed.acceptByte_dense : (acceptByte b s).buf.dense := by
  rw [acceptByte_buf, hs.write_fill]
  exact Memory.dense_ofBytes _

theorem State.Framed.length_succ : (s.buf.bytes ++ [b]).length = s.fill.toNat + 1 := by
  rw [List.length_append, hs.bytes_length_eq, List.length_singleton]

variable (hf : s.fault = false)
include hf

theorem State.Framed.fill_succ : (s.fill + 1).toNat = s.fill.toNat + 1 := fill_succ_toNat (hs.fill_lt_capacity hf)

theorem State.Framed.fill_succ_eq_iff (v : Offset) : s.fill + 1 = v ↔ s.fill.toNat + 1 = v.toNat := by
  rw [← hs.fill_succ hf, BitVec.toNat_inj]

theorem State.Framed.acceptByte_fill_eq : (acceptByte b s).fill.toNat = (acceptByte b s).buf.length := by
  rw [← Memory.bytes_length, hs.acceptByte_bytes, hs.length_succ, acceptByte_fill, hs.fill_succ hf]

/-- The length view once the byte has been accepted. -/
theorem State.Framed.acceptByte_x_three {h : Header} (hd : hdrDecode (s.buf.bytes ++ [b]) = .ok h) :
    (acceptByte b s).x 3 = .ok h.length :=
  x_three_of_hdr hs.acceptByte_dense (hs.acceptByte_fill_eq hf) (by rwa [hs.acceptByte_bytes])

/-- Once the header was complete the marker is the total of its length, which a further byte does not change. -/
theorem State.Framed.expected_of_hdr_succ {h : Header} (hd : hdrDecode (s.buf.bytes ++ [b]) = .ok h)
    (h24 : 24 ≤ s.fill.toNat) : s.expected = some (messageTotal h.length) := by
  rw [hdrDecode_append [b] (by rwa [hs.bytes_length_eq])] at hd
  rw [(hs.progress hf).1, markerOf_of_hdr hd]

variable (hl : s.live = true)
include hl

/-- HEADER to HEADER. -/
theorem pushByte_headerByte (hfill : s.fill.toNat < 23) : pushByte b s = .next (acceptByte b s) := by
  have hexp : s.expected = none := hs.expected_of_short hf (by omega)
  have h24 : s.fill + 1 ≠ 24 := by
    rw [ne_eq, hs.fill_succ_eq_iff hf]
    exact show s.fill.toNat + 1 ≠ 24 by omega
  rw [pushByte_accepts hl hf (hs.fill_lt_capacity hf), headerCheck_elsewhere h24,
    completionCheck_waits (by simp [hexp])]

/-- HEADER to FAULT. -/
theorem pushByte_oversize {h : Header} (hd : hdrDecode (s.buf.bytes ++ [b]) = .ok h) (hfill : s.fill.toNat = 23)
    (hcap : s.maxPayload < h.length) : pushByte b s = .next (raiseOversize h.length (acceptByte b s)) := by
  have h24 : s.fill + 1 = 24 := (hs.fill_succ_eq_iff hf 24).mpr (by rw [hfill]; rfl)
  rw [pushByte_accepts hl hf (hs.fill_lt_capacity hf), headerCheck_oversize h24 (hs.acceptByte_x_three hf hd) hcap]

/-- With the header complete and within the cap, the marker is set, or was set before, to the message's total. -/
theorem pushByte_of_header {h : Header} (hd : hdrDecode (s.buf.bytes ++ [b]) = .ok h) (hcap : h.length ≤ s.maxPayload) :
    pushByte b s = completionCheck (setExpected (messageTotal h.length) (acceptByte b s)) := by
  rw [pushByte_accepts hl hf (hs.fill_lt_capacity hf)]
  by_cases h24 : s.fill + 1 = 24
  · exact headerCheck_within h24 (hs.acceptByte_x_three hf hd) (BitVec.not_lt.mpr hcap)
  · have hfill : 24 ≤ s.fill.toNat := by
      have hlen := length_of_hdrDecode hd
      rw [hs.length_succ] at hlen
      have : s.fill.toNat + 1 ≠ 24 := fun h => h24 ((hs.fill_succ_eq_iff hf 24).mpr h)
      omega
    rw [headerCheck_elsewhere h24, setExpected_of_eq (s := acceptByte b s) (hs.expected_of_hdr_succ hf hd hfill)]

/-- HEADER to PAYLOAD, and PAYLOAD to PAYLOAD. -/
theorem pushByte_waits {h : Header} (hd : hdrDecode (s.buf.bytes ++ [b]) = .ok h) (hcap : h.length ≤ s.maxPayload)
    (hfill : s.fill.toNat + 1 < 24 + h.length.toNat) :
    pushByte b s = .next (setExpected (messageTotal h.length) (acceptByte b s)) := by
  rw [pushByte_of_header hs hf hl hd hcap, completionCheck_waits]
  intro hexp
  have htotal : s.fill + 1 = messageTotal h.length := (Option.some.inj hexp).symm
  rw [hs.fill_succ_eq_iff hf, messageTotal_toNat] at htotal
  omega

/-- The last byte of a message runs it (R85). -/
theorem pushByte_runs {i : Instr} (hw : i.wellFormed = true) (henc : encode i = s.buf.bytes ++ [b])
    (hcap : i.operands.length ≤ s.maxPayload) : pushByte b s = exec i (acceptByte b s) := by
  have hd : hdrDecode (s.buf.bytes ++ [b]) = .ok i.header := henc ▸ hdrDecode_encode i
  have hdec : decode (s.buf.bytes ++ [b]) = .ok i := henc ▸ decode_encode hw
  have hfill : s.fill + 1 = messageTotal i.operands.length := by
    rw [hs.fill_succ_eq_iff hf, messageTotal_toNat, ← encode_length hw, henc, hs.length_succ]
  rw [pushByte_of_header hs hf hl hd hcap, completionCheck_executes (i := i),
    exec_within (s := acceptByte b s) hcap,
    exec_within (s := setExpected (messageTotal i.header.length) (acceptByte b s)) hcap]
  · rfl
  · exact congrArg some hfill.symm
  · exact (congrArg decode hs.acceptByte_bytes).trans hdec

/-- HEADER or PAYLOAD to HEADER: the record is emitted and the buffer emptied. -/
theorem pushByte_completes {i : Instr} (hw : i.wellFormed = true) (henc : encode i = s.buf.bytes ++ [b])
    (hcap : i.operands.length ≤ s.maxPayload) :
    pushByte b s = .next (completeMessage (instrRecord i) (acceptByte b s)) :=
  (pushByte_runs hs hf hl hw henc hcap).trans (exec_within hcap)

/-- A framed, live, un-faulted block takes every byte, by one of the transitions. -/
theorem pushByte_transition (b : Byte) : ∃ t, pushByte b s = .next t ∧ Transition b s t := by
  rcases Nat.lt_or_ge s.fill.toNat 23 with hshort | hfill
  · exact ⟨_, pushByte_headerByte hs hf hl hshort, .headerByte hshort⟩
  have hq : (s.buf.bytes ++ [b]).length = s.fill.toNat + 1 := hs.length_succ
  obtain ⟨h, hd⟩ := hdrDecode_isOk (b := s.buf.bytes ++ [b]) (by omega)
  have hpayload (h24 : 24 ≤ s.fill.toNat) : h.length ≤ s.maxPayload ∧ s.fill.toNat < 24 + h.length.toNat := by
    have hp : hdrDecode s.buf.bytes = .ok h := by
      rwa [hdrDecode_append [b] (by rwa [hs.bytes_length_eq])] at hd
    have := (hs.progress hf).2 h hp
    rwa [hs.bytes_length_eq] at this
  by_cases hcap : s.maxPayload < h.length
  · have h23 : s.fill.toNat = 23 := by
      by_contra hne
      exact BitVec.not_lt.mpr (hpayload (by omega)).1 hcap
    exact ⟨_, pushByte_oversize hs hf hl hd h23 hcap, .oversize h hd h23 hcap⟩
  have hcap : h.length ≤ s.maxPayload := BitVec.not_lt.mp hcap
  rcases Nat.lt_or_ge (s.fill.toNat + 1) (24 + h.length.toNat) with hwait | hlast
  · exact ⟨_, pushByte_waits hs hf hl hd hcap hwait, .waits h hd hcap hwait⟩
  · obtain ⟨i, hw, hlen, henc⟩ := exists_message hd (by omega)
    have hexact : (s.buf.bytes ++ [b]).length ≤ 24 + h.length.toNat := by
      rcases Nat.lt_or_ge s.fill.toNat 24 with h24 | h24
      · omega
      · have := (hpayload h24).2
        omega
    rw [List.take_of_length_le hexact] at henc
    rw [← hlen] at hcap
    exact ⟨_, pushByte_completes hs hf hl hw henc hcap, .completes i hw henc hcap⟩

end

/-- Every byte that a state of the invariant accepts makes one of the transitions. -/
theorem transition_of_next {b : Byte} {s t : State} (hinv : s.Inv) (h : pushByte b s = .next t) :
    s.Framed ∧ s.live = true ∧ s.fault = false ∧ Transition b s t := by
  obtain ⟨hl, hf, -⟩ := pushByte_next h
  have hs := hinv.framed hl
  obtain ⟨t', ht', htrans⟩ := pushByte_transition hs hf hl b
  obtain rfl : t' = t := Host.Outcome.next.inj (ht'.symm.trans h)
  exact ⟨hs, hl, hf, htrans⟩

/-! ## What every transition keeps -/

theorem recordBytes_append_singleton (out : List Record) (r : Record) :
    recordBytes (out ++ [r]) = recordBytes out + (24 + r.length.toNat) := by simp [recordBytes]

/-- Every transition leads to a framed state (R34). -/
theorem Transition.framed {b : Byte} {s t : State} (hs : s.Framed) (hf : s.fault = false) (h : Transition b s t) :
    t.Framed := by
  have hbytes : (acceptByte b s).buf.bytes = s.buf.bytes ++ [b] := hs.acceptByte_bytes
  have hlen : (s.buf.bytes ++ [b]).length = s.fill.toNat + 1 := hs.length_succ
  have hcounted : s.consumed + 1 = (s.fill + 1).toNat + recordBytes s.out := by
    rw [hs.counted, hs.fill_succ hf]
    omega
  cases h with
  | headerByte hfill =>
    have hshort : (acceptByte b s).buf.bytes.length < 24 := by rw [hbytes]; omega
    refine State.framed_of_inProgress hs.acceptByte_dense (hs.acceptByte_fill_eq hf) ?_ (.of_short hshort) hf
      (hs.clean hf) hcounted
    rw [markerOf_of_short hshort, acceptByte_expected, hs.expected_of_short hf (by omega)]
  | oversize h hd hfill hcap =>
    have hexp : s.expected = none := hs.expected_of_short hf (by omega)
    exact ⟨hs.acceptByte_dense, hs.acceptByte_fill_eq hf, by simp, by simp,
      fun _ => ⟨(hs.fill_succ_eq_iff hf 24).mpr (by rw [hfill]; rfl), hexp, rfl, hs.acceptByte_x_three hf hd, hcap⟩,
      by simp, hcounted⟩
  | waits h hd hcap hfill =>
    have hdec : hdrDecode (acceptByte b s).buf.bytes = .ok h := by rwa [hbytes]
    refine State.framed_of_inProgress hs.acceptByte_dense (hs.acceptByte_fill_eq hf) (markerOf_of_hdr hdec).symm
      (fun h' hd' => ?_) hf (hs.clean hf) hcounted
    obtain rfl : h = h' := Except.ok.inj (hdec.symm.trans hd')
    exact ⟨hcap, by rw [setExpected_buf, hbytes, hlen]; exact hfill⟩
  | completes i hw henc hcap =>
    refine State.framed_of_inProgress Memory.dense_nil rfl rfl (.of_short (by simp)) hf (hs.clean hf) ?_
    have htotal : s.fill.toNat + 1 = 24 + i.operands.length.toNat := by rw [← hlen, ← henc, encode_length hw]
    have hrec : (instrRecord i).length = i.operands.length := rfl
    rw [completeMessage_consumed, completeMessage_out, recordBytes_append_singleton, hrec]
    simp only [acceptByte_consumed, acceptByte_out, completeMessage_fill, hcounted, hs.fill_succ hf, htotal]
    simp [Nat.add_comm]

/-- Settles O41: RESET gives a framed state, an accepted byte makes a transition, and the other steps change the
host's events only. -/
theorem stepKeepsTheInvariant : Obligations.StepKeepsTheInvariant := by
  intro s t hinv hstep
  rcases step_next hstep with ⟨-, rfl⟩ | ⟨es, -, rfl⟩ | ⟨es, -, rfl⟩ | ⟨_, b, es, -, -, es', hb⟩
  · exact hinv
  · exact (afterReset_framed _ _).inv
  · exact hinv.withInput es
  · obtain ⟨hs, -, hf, htrans⟩ := transition_of_next (hinv.withInput es') hb
    exact (htrans.framed hs hf).inv

/-- Every transition keeps the records sound. -/
theorem Transition.recordsSound {b : Byte} {s t : State} (h : Transition b s t) (hs : s.RecordsSound) :
    t.RecordsSound := by
  cases h with
  | completes i hw _ hcap =>
    intro r hr
    rcases List.mem_append.mp hr with hr | hr
    · exact hs r hr
    · rw [List.mem_singleton.mp hr]
      exact instrRecord_sound hw hcap
  | _ => exact hs

/-- Settles O43: a transition adds the record of a well-formed message within the cap, or none. -/
theorem stepKeepsRecordsSound : Obligations.StepKeepsRecordsSound := by
  intro s t hinv hsound hstep
  rcases step_next hstep with ⟨-, rfl⟩ | ⟨es, -, rfl⟩ | ⟨es, -, rfl⟩ | ⟨_, b, es, -, -, es', hb⟩
  · exact hsound
  · exact fun r hr => absurd hr List.not_mem_nil
  · exact hsound
  · obtain ⟨-, -, -, htrans⟩ := transition_of_next (hinv.withInput es') hb
    exact htrans.recordsSound hsound

/-- From the invariant a byte is taken, or refused for one of R13's two reasons. -/
theorem State.Inv.pushByte_goes_on {s : State} (hinv : s.Inv) (b : Byte) : (∃ t, pushByte b s = .next t) ∨
    ((s.live = false ∨ s.fault = true) ∧
      (pushByte b s = .refused .notLive ∨ pushByte b s = .refused .faultLatched)) := by
  by_cases hdead : s.live = false ∨ s.fault = true
  · exact .inr ⟨hdead, pushByte_refuses hdead⟩
  · obtain ⟨hl, hf⟩ : s.live = true ∧ s.fault = false := by simpa using hdead
    obtain ⟨t, ht, -⟩ := pushByte_transition (hinv.framed hl) hf hl b
    exact .inl ⟨t, ht⟩

/-- Settles O44: by the host's oldest event; only a byte can be refused. -/
theorem invariantStatesNeverStop : Obligations.InvariantStatesNeverStop := by
  intro s hinv
  cases hin : s.input with
  | nil => exact .inl ⟨_, step_of_no_event hin⟩
  | cons e es =>
    rw [step_of_event hin]
    match e with
    | .reset => exact .inl ⟨_, rfl⟩
    | .pushByte b => exact (hinv.withInput es).pushByte_goes_on b
    | .push [] => exact .inl ⟨_, rfl⟩
    | .push (b :: bs) => exact (hinv.withInput (chunkRest bs es)).pushByte_goes_on b

/-! ## The rows of the phase table -/

/-- Settles O26: the header byte is accepted. -/
theorem earlyHeaderByteIsStored : Obligations.EarlyHeaderByteIsStored := fun _ _ hs hl hf _ hfill =>
  pushByte_headerByte hs hf hl hfill

/-- Header byte 23 completes a header whose length field was already there. -/
theorem State.Framed.header_complete {s : State} (hs : s.Framed) (hfill : s.fill = 23) {len : Word}
    (hlen : le32 s.buf.bytes 12 = some len) (b : Byte) :
    s.fill.toNat = 23 ∧ ∃ h, hdrDecode (s.buf.bytes ++ [b]) = .ok h ∧ h.length = len := by
  have h23 : s.fill.toNat = 23 := by rw [hfill]; rfl
  have hbytes := hs.bytes_length_eq
  obtain ⟨h, hd⟩ := hdrDecode_isOk (b := s.buf.bytes ++ [b]) (by rw [hs.length_succ]; omega)
  have h12 := le32_length_of_hdrDecode hd
  rw [le32_append [b] (by omega), hlen] at h12
  exact ⟨h23, h, hd, (Option.some.inj h12).symm⟩

/-- Settles O27: the header is complete and its payload missing. -/
theorem headerCompletionSetsExpected : Obligations.HeaderCompletionSetsExpected := by
  intro b len s hs hl hf hfill _ hlen hpos hcap
  obtain ⟨h23, h, hd, rfl⟩ := hs.header_complete hfill hlen b
  refine ⟨messageTotal h.length, messageTotal_toNat _, (pushByte_waits hs hf hl hd hcap (by omega)).trans ?_⟩
  simp only [setExpected, acceptByte, appendByte, hfill]
  rfl

/-- Settles O28: a header with length 0 is a whole message. -/
theorem headerOnlyMessageCompletesAtByte23 : Obligations.HeaderOnlyMessageCompletesAtByte23 := by
  intro b s hs hl hf hfill _ hlen
  obtain ⟨h23, h, hd, hzero⟩ := hs.header_complete hfill hlen b
  have htotal : 24 + h.length.toNat = (s.buf.bytes ++ [b]).length := by rw [hs.length_succ, hzero, h23]; rfl
  obtain ⟨i, hw, hlen, henc⟩ := exists_message hd htotal.le
  rw [htotal, List.take_length] at henc
  rw [hzero] at hlen
  have hcap : i.operands.length ≤ s.maxPayload := by
    rw [hlen, BitVec.le_def]
    exact Nat.zero_le _
  have hpayload : i.operands.payload.length = 0 := (wellFormed_payload hw).trans (by rw [hlen]; rfl)
  exact ⟨instrRecord i, henc ▸ decodeRecord_encode hw, hlen, List.eq_nil_of_length_eq_zero hpayload,
    pushByte_completes hs hf hl hw henc hcap⟩

/-- Settles O29: the fault is taken on the complete header, and then refuses the rest of the chunk. -/
theorem oversizeHeaderTakesTheFault : Obligations.OversizeHeaderTakesTheFault := by
  intro b len s hs hl hf hfill _ hlen hcap
  obtain ⟨h23, h, hd, rfl⟩ := hs.header_complete hfill hlen b
  have hpush := pushByte_oversize hs hf hl hd h23 hcap
  refine ⟨hpush.trans ?_, ?_, fun bs => ⟨raiseOversize h.length (acceptByte b s), ?_, rfl, rfl⟩⟩
  · simp only [raiseOversize, acceptByte, appendByte, hfill]
    rfl
  · rw [← h23, hs.write_fill, Memory.bytes_ofBytes]
  · rw [pushChunk_cons_of_next hpush, pushChunk_refuses (.inr (raiseOversize_fault _ _))]

/-- Settles O30: the header stood in the buffer before, and the marker is already set. -/
theorem earlyPayloadByteIsStored : Obligations.EarlyPayloadByteIsStored := by
  intro b v s hs hl hf hv hfill
  obtain ⟨h, hd, rfl, hcap, h24, -⟩ := hs.header_of_expected hf hv
  rw [messageTotal_toNat] at hfill
  have hd : hdrDecode (s.buf.bytes ++ [b]) = .ok h := by rwa [hdrDecode_append [b] (by rwa [hs.bytes_length_eq])]
  rw [pushByte_waits hs hf hl hd hcap hfill, setExpected_of_eq (s := acceptByte b s) hv]
  rfl

/-- Settles O31: with its last byte the buffer is exactly a message. -/
theorem lastByteEmitsTheRecord : Obligations.LastByteEmitsTheRecord := by
  intro b v s hs hl hf hv hfill
  obtain ⟨h, hd, rfl, hcap, h24, -⟩ := hs.header_of_expected hf hv
  rw [messageTotal_toNat] at hfill
  have hd : hdrDecode (s.buf.bytes ++ [b]) = .ok h := by rwa [hdrDecode_append [b] (by rwa [hs.bytes_length_eq])]
  have htotal : 24 + h.length.toNat = (s.buf.bytes ++ [b]).length := by rw [hs.length_succ, hfill]
  obtain ⟨i, hw, hlen, henc⟩ := exists_message hd htotal.le
  rw [htotal, List.take_length] at henc
  rw [← hlen] at hcap
  exact ⟨instrRecord i, henc ▸ decodeRecord_encode hw, henc, pushByte_completes hs hf hl hw henc hcap⟩

/-- Settles O32: a record comes with a completion, after which every element but the ghosts has its reset value. -/
theorem afterAMessageAsAfterReset : Obligations.AfterAMessageAsAfterReset := by
  intro b s t hinv hpush hout
  obtain ⟨hs, hl, hf, htrans⟩ := transition_of_next hinv hpush
  obtain ⟨hcause, hinfo⟩ := hs.clean hf
  cases htrans with
  | completes i =>
    simp only [completeMessage, emptyBuffer, emit, acceptByte, appendByte, hl, hf, hcause, hinfo]
    rfl
  | _ => exact absurd rfl hout

/-- Settles O33: by the transition, and by the phase before it where the table has two rows for one. -/
theorem phaseTableIsExhaustive : Obligations.PhaseTableIsExhaustive := by
  intro b s t hinv hpush
  obtain ⟨hs, hl, hf, htrans⟩ := transition_of_next hinv hpush
  have hsucc := hs.fill_succ hf
  have header (h : s.fill.toNat < 24) : s.phase = .header := phase_of_header hf (hs.expected_of_short hf h)
  cases htrans with
  | headerByte hfill =>
    exact .inl ⟨header (by omega), by omega, phase_of_header hf (hs.expected_of_short hf (by omega)), hsucc, rfl⟩
  | oversize h hd hfill hcap =>
    exact .inr (.inl ⟨header (by omega), by omega, h.length, le32_length_of_hdrDecode hd, .inl ⟨hcap,
      phase_of_fault rfl, (hs.fill_succ_eq_iff hf 24).mpr (by rw [hfill]; rfl), rfl⟩⟩)
  | waits h hd hcap hwait =>
    have hlen := length_of_hdrDecode hd
    rw [hs.length_succ] at hlen
    rcases Nat.lt_or_ge s.fill.toNat 24 with h24 | h24
    · exact .inr (.inl ⟨header h24, by omega, h.length, le32_length_of_hdrDecode hd, .inr (.inr ⟨by omega, hcap,
        phase_of_payload hf rfl, (hs.fill_succ_eq_iff hf 24).mpr (show s.fill.toNat + 1 = 24 by omega), rfl, rfl⟩)⟩)
    · have hexp := hs.expected_of_hdr_succ hf hd h24
      exact .inr (.inr ⟨_, phase_of_payload hf hexp, hexp, .inl ⟨by rwa [messageTotal_toNat], phase_of_payload hf rfl,
        hsucc, rfl, rfl⟩⟩)
  | completes i hw henc hcap =>
    have hd : hdrDecode (s.buf.bytes ++ [b]) = .ok i.header := henc ▸ hdrDecode_encode i
    have htotal : s.fill.toNat + 1 = 24 + i.header.length.toNat := by
      rw [← hs.length_succ (b := b), ← henc]
      exact encode_length hw
    rcases Nat.lt_or_ge s.fill.toNat 24 with h24 | h24
    · have hzero : i.header.length = 0 := BitVec.eq_of_toNat_eq (show i.header.length.toNat = 0 by omega)
      exact .inr (.inl ⟨header h24, by omega, _, le32_length_of_hdrDecode hd,
        .inr (.inl ⟨hzero, phase_of_header hf rfl, rfl, _, rfl⟩)⟩)
    · have hexp := hs.expected_of_hdr_succ hf hd h24
      exact .inr (.inr ⟨_, phase_of_payload hf hexp, hexp, .inr ⟨by rwa [messageTotal_toNat], phase_of_header hf rfl,
        rfl, _, rfl⟩⟩)

/-- Settles O40: the message's last byte runs it; above the cap header byte 23 takes the fault that exec takes. -/
theorem stepRunsTheDecodedMessage : Obligations.StepRunsTheDecodedMessage := by
  intro b es i s hinv hl hf hin hw hmsg
  have hs : ({ s with input := es } : State).Framed := (hinv.framed hl).withInput es
  rw [step_of_event hin]
  rcases hmsg with ⟨hcap, henc⟩ | ⟨hcap, henc⟩
  · exact pushByte_runs hs hf hl hw henc hcap
  · have hd : hdrDecode (s.buf.bytes ++ [b]) = .ok i.header := by
      rw [← henc, (Laws.Encoding.shape hw).2.1]
      simpa using hdrDecode_encodeHeader_append i.header []
    have hfill : s.fill.toNat = 23 := by
      have hlen : (s.buf.bytes ++ [b]).length = s.fill.toNat + 1 := hs.length_succ
      rw [← henc, (Laws.Encoding.shape hw).2.1, encodeHeader_length] at hlen
      omega
    exact (pushByte_oversize hs hf hl hd hfill hcap).trans
      (exec_above (s := acceptByte b { s with input := es }) hcap).symm

end Sys2Proof.Machine

/-! # Proofs of the family other, part 4: chunks and streams (R87, R88, R91) and the placed word -/

namespace Sys2Proof.Machine

/-! ## No byte is lost -/

/-- A transition moves the byte to the buffer, or the buffer with it to a record (R91). -/
theorem Transition.covers {b : Byte} {s t : State} (hs : s.Framed) (h : Transition b s t) :
    t.consumed = s.consumed + 1 ∧ ∃ rs, t.out = s.out ++ rs ∧
      s.buf.bytes ++ [b] = (rs.map Record.wire).flatten ++ t.buf.bytes := by
  cases h with
  | completes i _ henc _ => exact ⟨rfl, [instrRecord i], rfl, by simp [instrRecord_wire, henc]⟩
  | _ => exact ⟨rfl, [], (List.append_nil _).symm, hs.acceptByte_bytes.symm⟩

/-- Settles O49: by induction over the chunk; each accepted byte is covered by its transition, and a refusing block
leaves all that follows. -/
theorem recordsCoverTheStream : Obligations.RecordsCoverTheStream := by
  intro c
  induction c with
  | nil => exact fun s _ _ => ⟨s, [], [], rfl, by simp, by simp, by simp, rfl⟩
  | cons b bs ih =>
    intro s hinv hl
    have hs := hinv.framed hl
    cases hf : s.fault with
    | true => exact ⟨s, b :: bs, [], pushChunk_refuses (.inr hf) _, by simp, by simp, fun _ => hf, rfl⟩
    | false =>
      obtain ⟨u, hpush, htrans⟩ := pushByte_transition hs hf hl b
      obtain ⟨hconsumed, rs, hout, hcover⟩ := htrans.covers hs
      obtain ⟨t, left, rs', hchunk, hout', hcover', hleft, hconsumed'⟩ :=
        ih u (htrans.framed hs hf).inv (live_of_pushByte hpush)
      refine ⟨t, left, rs ++ rs', (pushChunk_cons_of_next hpush).trans hchunk, ?_, ?_, hleft, ?_⟩
      · rw [hout', hout, List.append_assoc]
      · calc s.buf.bytes ++ b :: bs
            = (s.buf.bytes ++ [b]) ++ bs := by simp
          _ = (rs.map Record.wire).flatten ++ (u.buf.bytes ++ bs) := by rw [hcover, List.append_assoc]
          _ = ((rs ++ rs').map Record.wire).flatten ++ t.buf.bytes ++ left := by rw [hcover']; simp
      · rw [hconsumed', hconsumed, List.length_cons]
        omega

/-! ## The loop of PUSH_BULK -/

/-- What any bytes begin with: a message in progress, a header above the cap, or a whole message within it. -/
theorem stream_cases (cap : Word) (p : List Byte) :
    InProgress cap p ∨ (∃ h, hdrDecode p = .ok h ∧ cap < h.length) ∨
    (∃ i q, i.wellFormed = true ∧ i.operands.length ≤ cap ∧ p = encode i ++ q) := by
  rcases Nat.lt_or_ge p.length 24 with hshort | h24
  · exact .inl (.of_short hshort)
  obtain ⟨h, hd⟩ := hdrDecode_isOk h24
  by_cases hcap : cap < h.length
  · exact .inr (.inl ⟨h, hd, hcap⟩)
  have hcap : h.length ≤ cap := BitVec.not_lt.mp hcap
  rcases Nat.lt_or_ge p.length (24 + h.length.toNat) with hlt | hge
  · refine .inl fun h' hd' => ?_
    obtain rfl : h = h' := Except.ok.inj (hd.symm.trans hd')
    exact ⟨hcap, hlt⟩
  · obtain ⟨i, hw, hlen, henc⟩ := exists_message hd hge
    exact .inr (.inr ⟨i, p.drop (24 + h.length.toNat), hw, hlen ▸ hcap, by rw [henc, List.take_append_drop]⟩)

section
variable {cap : Word}

/-- The loop leaves a message in progress pending. -/
theorem bulkLoop_of_inProgress {p : List Byte} (hp : InProgress cap p) (n : Nat) :
    bulkLoop cap n p = ⟨[], p, none, []⟩ := by
  cases n with
  | zero => rfl
  | succ n =>
    rcases Nat.lt_or_ge p.length 24 with hshort | h24
    · simp only [bulkLoop, hdrDecode_short hshort]
    · obtain ⟨h, hd⟩ := hdrDecode_isOk h24
      obtain ⟨hcap, hlt⟩ := hp h hd
      have htake : p.take (messageTotal h.length).toNat = p :=
        List.take_of_length_le (by rw [messageTotal_toNat]; omega)
      simp only [bulkLoop, hd, if_neg (BitVec.not_lt.mpr hcap), htake, decodeRecord_short_payload hd hlt]

/-- The loop stops at a header above the cap, behind its 24 bytes. -/
theorem bulkLoop_of_oversize {p : List Byte} {h : Header} (hd : hdrDecode p = .ok h) (hcap : cap < h.length) (n : Nat) :
    bulkLoop cap (n + 1) p = ⟨[], p.take 24, some h.length, p.drop 24⟩ := by
  simp only [bulkLoop, hd, if_pos hcap]

/-- The loop takes a whole message and goes on behind it. -/
theorem bulkLoop_of_message {i : Instr} (hw : i.wellFormed = true) (hcap : i.operands.length ≤ cap) (q : List Byte)
    (n : Nat) : bulkLoop cap (n + 1) (encode i ++ q) =
      { bulkLoop cap n q with records := instrRecord i :: (bulkLoop cap n q).records } := by
  have htotal : (messageTotal i.header.length).toNat = (encode i).length := by
    rw [messageTotal_toNat, encode_length hw]
    rfl
  have hwithin : ¬ cap < i.header.length := BitVec.not_lt.mpr hcap
  simp only [bulkLoop, hdrDecode_encode_append, if_neg hwithin, htotal, List.take_left, List.drop_left,
    decodeRecord_encode hw]

/-- Turns that the bytes cannot use do not matter: any bound from their number on gives the same. -/
theorem bulkLoop_turns {n m : Nat} {p : List Byte} (hn : p.length ≤ n) (hm : p.length ≤ m) :
    bulkLoop cap n p = bulkLoop cap m p := by
  induction n generalizing m p with
  | zero =>
    have hp : InProgress cap p := .of_short (by omega)
    rw [bulkLoop_of_inProgress hp, bulkLoop_of_inProgress hp]
  | succ n ih =>
    rcases stream_cases cap p with hp | ⟨h, hd, hcap⟩ | ⟨i, q, hw, hcap, rfl⟩
    · rw [bulkLoop_of_inProgress hp, bulkLoop_of_inProgress hp]
    · have h24 := length_of_hdrDecode hd
      obtain ⟨m, rfl⟩ : ∃ k, m = k + 1 := ⟨m - 1, by omega⟩
      rw [bulkLoop_of_oversize hd hcap, bulkLoop_of_oversize hd hcap]
    · rw [List.length_append, encode_length hw] at hn hm
      obtain ⟨m, rfl⟩ : ∃ k, m = k + 1 := ⟨m - 1, by omega⟩
      rw [bulkLoop_of_message hw hcap, bulkLoop_of_message hw hcap, ih (by omega) (m := m) (by omega)]

end

/-! ## PUSH_BULK follows the transitions -/

theorem pushBulk_of_live {s : State} (hl : s.live = true) (hf : s.fault = false) (c : List Byte) :
    pushBulk c s =
      applyBulk c.length (bulkLoop s.maxPayload (s.buf.bytes ++ c).length (s.buf.bytes ++ c)) s :=
  if_neg (by simp [hl, hf])

theorem pushBulk_of_fault {s : State} (hf : s.fault = true) (c : List Byte) : pushBulk c s = ⟨s, c⟩ := if_pos (.inr hf)

@[simp] theorem applyBulk_refused (n : Nat) (r : BulkResult) (s : State) : (applyBulk n r s).refused = r.unread := by
  unfold applyBulk
  split <;> rfl

/-- No chunk: the message in progress stays pending, and its marker is the one it had. -/
theorem pushBulk_nil {s : State} (hs : s.Framed) (hl : s.live = true) : pushBulk [] s = ⟨s, []⟩ := by
  cases hf : s.fault with
  | true => exact pushBulk_of_fault hf []
  | false =>
    obtain ⟨hexp, hp⟩ := hs.progress hf
    have hfill : BitVec.ofNat 33 s.buf.bytes.length = s.fill := by
      rw [hs.bytes_length_eq, BitVec.ofNat_toNat, BitVec.setWidth_eq]
    rw [pushBulk_of_live hl hf, List.append_nil, bulkLoop_of_inProgress hp]
    simp only [applyBulk, hfill, ← hexp, ← hs.dense, List.append_nil, List.length_nil, Nat.sub_zero, Nat.add_zero]

/-- A byte that stays in the buffer: the loop starts on the same bytes, and counts one byte less. -/
theorem applyBulk_acceptByte {b : Byte} {s t : State}
    (ht : t = acceptByte b s ∨ ∃ v, t = setExpected v (acceptByte b s)) {n : Nat} {r : BulkResult}
    (hr : r.unread.length ≤ n) : applyBulk (n + 1) r s = applyBulk n r t := by
  have hconsumed : s.consumed + (n + 1 - r.unread.length) = s.consumed + 1 + (n - r.unread.length) := by omega
  unfold applyBulk
  rcases ht with rfl | ⟨v, rfl⟩ <;> split <;> rw [hconsumed] <;> rfl

/-- The byte that completes a message: the loop's first turn emits its record and leaves the rest to the other turns. -/
theorem applyBulk_completeMessage {b : Byte} {s : State} {e : Record} {n : Nat} {r : BulkResult}
    (hr : r.unread.length ≤ n) :
    applyBulk (n + 1) { r with records := e :: r.records } s =
      applyBulk n r (completeMessage e (acceptByte b s)) := by
  have hconsumed : s.consumed + (n + 1 - r.unread.length) = s.consumed + 1 + (n - r.unread.length) := by omega
  have hout : s.out ++ e :: r.records = s.out ++ [e] ++ r.records := by simp
  obtain ⟨records, pending, oversize, unread⟩ := r
  cases oversize <;> simp only [applyBulk] <;> rw [hconsumed, hout] <;> rfl

/-- PUSH_BULK of a chunk is a transition with the chunk's first byte and then PUSH_BULK of the rest. -/
theorem pushBulk_cons {b : Byte} {s t : State} (hs : s.Framed) (hf : s.fault = false) (hl : s.live = true)
    (h : Transition b s t) {c : List Byte} (hrefused : (pushBulk c t).refused.length ≤ c.length) :
    pushBulk (b :: c) s = pushBulk c t := by
  have hbytes : (acceptByte b s).buf.bytes = s.buf.bytes ++ [b] := hs.acceptByte_bytes
  have hsplit : s.buf.bytes ++ b :: c = s.buf.bytes ++ [b] ++ c := by simp
  rw [pushBulk_of_live hl hf, hsplit]
  cases h with
  | headerByte hfill =>
    rw [pushBulk_of_live (s := acceptByte b s) hl hf, hbytes] at hrefused ⊢
    rw [applyBulk_refused] at hrefused
    exact applyBulk_acceptByte (.inl rfl) hrefused
  | waits h hd hcap hfill =>
    rw [pushBulk_of_live (s := setExpected _ (acceptByte b s)) hl hf, setExpected_buf, hbytes] at hrefused ⊢
    rw [applyBulk_refused] at hrefused
    exact applyBulk_acceptByte (.inr ⟨_, rfl⟩) hrefused
  | oversize h hd hfill hcap =>
    have h24 : (s.buf.bytes ++ [b]).length = 24 := by rw [hs.length_succ, hfill]
    have hexp : s.expected = none := hs.expected_of_short hf (by omega)
    have hfill' : s.fill + 1 = BitVec.ofNat 33 24 := (hs.fill_succ_eq_iff hf _).mpr (by rw [hfill]; rfl)
    have hcount : (b :: c).length - c.length = 1 := by simp
    rw [pushBulk_of_fault (raiseOversize_fault _ _), List.length_append, h24, Nat.add_comm 24,
      bulkLoop_of_oversize (by rwa [hdrDecode_append c h24.ge]) hcap, List.take_left' h24, List.drop_left' h24]
    simp only [applyBulk, raiseOversize, acceptByte, appendByte, hs.write_fill, h24, hfill', hexp, hcount,
      List.append_nil]
  | completes i hw henc hcap =>
    have hturns : ∃ k, (encode i ++ c).length = k + 1 ∧ c.length ≤ k :=
      ⟨(encode i ++ c).length - 1, by rw [List.length_append, encode_length hw]; omega,
        by rw [List.length_append, encode_length hw]; omega⟩
    obtain ⟨k, hk, hc⟩ := hturns
    rw [pushBulk_of_live (s := completeMessage _ (acceptByte b s)) hl hf, completeMessage_buf,
      Memory.bytes_nil, List.nil_append] at hrefused ⊢
    rw [applyBulk_refused] at hrefused
    rw [← henc, hk, bulkLoop_of_message hw hcap, bulkLoop_turns hc le_rfl]
    exact applyBulk_completeMessage hrefused

/-- Bytes are refused only from the end of the chunk. -/
theorem pushChunk_refused_length {c : List Byte} {s : State} {d : Delivery} (h : pushChunk c s = .next d) :
    d.refused.length ≤ c.length := by
  induction c generalizing s with
  | nil =>
    cases h
    exact le_rfl
  | cons b bs ih =>
    rcases pushChunk_cons_next h with ⟨t, -, hbs⟩ | ⟨-, rfl⟩
    · exact (ih hbs).trans (Nat.le_succ _)
    · exact le_rfl

/-- Settles O48: by induction over the chunk, one transition a byte. -/
theorem bulkEqualsByteSerial : Obligations.BulkEqualsByteSerial := by
  intro c
  induction c with
  | nil =>
    intro s hinv hl
    rw [pushBulk_nil (hinv.framed hl) hl]
    rfl
  | cons b bs ih =>
    intro s hinv hl
    have hs := hinv.framed hl
    cases hf : s.fault with
    | true => rw [pushBulk_of_fault hf, pushChunk_refuses (.inr hf)]
    | false =>
      obtain ⟨t, hpush, htrans⟩ := pushByte_transition hs hf hl b
      have hrest : pushChunk bs t = .next (pushBulk bs t) := ih t (htrans.framed hs hf).inv (live_of_pushByte hpush)
      rw [pushChunk_cons_of_next hpush, hrest, pushBulk_cons hs hf hl htrans (pushChunk_refused_length hrest)]

/-! ## Streams of whole messages -/

/-- The loop takes a stream of whole messages within the cap message by message. -/
theorem bulkLoop_of_messages {cap : Word} {is : List Instr}
    (his : ∀ i ∈ is, i.wellFormed = true ∧ i.operands.length ≤ cap) {n : Nat}
    (hn : (is.map encode).flatten.length ≤ n) :
    bulkLoop cap n (is.map encode).flatten = ⟨is.map instrRecord, [], none, []⟩ := by
  induction is generalizing n with
  | nil => exact bulkLoop_of_inProgress (.of_short (by simp)) n
  | cons i is ih =>
    obtain ⟨⟨hw, hcap⟩, his⟩ := List.forall_mem_cons.mp his
    rw [List.map_cons, List.flatten_cons] at hn ⊢
    rw [List.length_append, encode_length hw] at hn
    obtain ⟨n, rfl⟩ : ∃ k, n = k + 1 := ⟨n - 1, by omega⟩
    rw [bulkLoop_of_message hw hcap, ih his (by omega)]
    rfl

/-- Settles O50: delivery is PUSH_BULK, whose loop starts at a message boundary and takes every message. -/
theorem wellFormedStreamIsDelivered : Obligations.WellFormedStreamIsDelivered := by
  intro is s hinv hl hf hfill his
  have hs := hinv.framed hl
  have hbuf : s.buf = [] := List.eq_nil_of_length_eq_zero (by rw [← hs.fill_eq, hfill]; rfl)
  have hexp : s.expected = none := by rw [(hs.progress hf).1, hbuf]; rfl
  have hloop := bulkLoop_of_messages his le_rfl
  rw [bulkEqualsByteSerial _ s hinv hl, pushBulk_of_live hl hf, hbuf, Memory.bytes_nil, List.nil_append, hloop]
  simp only [applyBulk, List.length_nil, Nat.sub_zero, markerOf_of_short (p := []) (by simp), ← hexp]
  rw [show BitVec.ofNat 33 0 = s.fill from hfill.symm]
  rfl

/-! ## The placed word -/

/-- A table word that decodes is the encoding of its message, with nothing after it. -/
theorem encode_of_decodeTableWord {nbits w : Nat} {i : Instr} (h : decodeTableWord nbits w = some i) :
    i.wellFormed = true ∧ encode i = tableBytes nbits w := by
  have hdec : decode (tableBytes nbits w) = .ok i := by
    unfold decodeTableWord at h
    split at h
    · rw [‹decode _ = _›, Option.some.inj h]
    · cases h
  obtain ⟨hw, henc⟩ := encodeOfDecode _ _ hdec
  obtain ⟨hd, hhdr, hlen, hi⟩ := decode_ok hdec
  have hlength : i.operands.length = BitVec.ofNat 32 (w % 2 ^ nbits / 2 ^ 96 % 2 ^ 32) := by
    rw [hi, instrOf_operands]
    exact Option.some.inj ((le32_length_of_hdrDecode hhdr).symm.trans (le32_tableBytes nbits w))
  have htotal : (tableBytes nbits w).length ≤ 24 + i.operands.length.toNat := by
    rw [tableBytes_length, hlength, BitVec.toNat_ofNat, Nat.mod_mod]
  exact ⟨hw, henc.trans (List.take_of_length_le htotal)⟩

/-- How many bytes of a message have been accepted before the step that runs it (R84). -/
theorem bytesBefore_encode {i : Instr} (hw : i.wellFormed = true) (cap : Word) :
    bytesBefore cap (encode i) = if cap < i.operands.length then 23 else 23 + i.operands.length.toNat := by
  have h12 := le32_length_of_hdrDecode (hdrDecode_encode i)
  have hlast : (encode i).length - 1 = 23 + i.operands.length.toNat := by rw [encode_length hw]; omega
  simp only [bytesBefore, h12, hlast]
  rfl

/-- Those bytes are a message in progress. -/
theorem inProgress_bytesBefore {i : Instr} (hw : i.wellFormed = true) (cap : Word) :
    InProgress cap ((encode i).take (bytesBefore cap (encode i))) := by
  rw [bytesBefore_encode hw]
  split
  · exact .of_short (by rw [List.length_take]; omega)
  · rename_i hcap
    intro h hd
    have hhdr : hdrDecode (encode i) = .ok h := by
      rw [← hd, ← hdrDecode_append _ (length_of_hdrDecode hd), List.take_append_drop]
    obtain rfl : i.header = h := Except.ok.inj ((hdrDecode_encode i).symm.trans hhdr)
    refine ⟨BitVec.not_lt.mp hcap, ?_⟩
    rw [List.length_take]
    exact show min (23 + i.operands.length.toNat) _ < 24 + i.operands.length.toNat by omega

section
variable {i : Instr} (hw : i.wellFormed = true)
include hw

/-- The last byte is there to be presented. -/
theorem bytesBefore_lt_length (cap : Word) : bytesBefore cap (encode i) < (encode i).length := by
  rw [bytesBefore_encode hw, encode_length hw]
  split <;> omega

/-- The placed state is framed: it is the state that pushing the bytes before the last one reaches. -/
theorem placeMessage_framed (s : State) : (placeMessage (encode i) s).Framed := by
  have hlt := bytesBefore_lt_length hw s.maxPayload
  have hlen : ((encode i).take (bytesBefore s.maxPayload (encode i))).length = bytesBefore s.maxPayload (encode i) := by
    rw [List.length_take]; omega
  have hfill : (placeMessage (encode i) s).fill.toNat = bytesBefore s.maxPayload (encode i) := by
    have hlength := i.operands.length.isLt
    rw [encode_length hw] at hlt
    rw [placeMessage, BitVec.toNat_ofNat]
    omega
  refine State.framed_of_inProgress (Memory.dense_ofBytes _) ?_ ?_ ?_ rfl ⟨rfl, rfl⟩ ?_
  · rw [hfill, placeMessage, Memory.length_ofBytes, hlen]
  · rw [placeMessage, Memory.bytes_ofBytes]
  · rw [placeMessage, Memory.bytes_ofBytes]
    exact inProgress_bytesBefore hw s.maxPayload
  · rw [hfill]
    rfl

/-- The byte presented to the placed state completes the message, or its header where the cap refuses it. -/
theorem placeMessage_next_byte (s : State) : ∃ b, (placeMessage (encode i) s).input = .pushByte b :: s.input ∧
    (placeMessage (encode i) s).buf.bytes ++ [b] = (encode i).take (bytesBefore s.maxPayload (encode i) + 1) := by
  have hlt := bytesBefore_lt_length hw s.maxPayload
  have hnext : slice (encode i) (bytesBefore s.maxPayload (encode i)) (bytesBefore s.maxPayload (encode i) + 1) =
      [(encode i)[bytesBefore s.maxPayload (encode i)]] := by
    rw [slice_add, List.drop_eq_getElem_cons hlt]
    rfl
  refine ⟨(encode i)[bytesBefore s.maxPayload (encode i)], ?_, ?_⟩
  · rw [placeMessage, hnext]
    rfl
  · rw [placeMessage, Memory.bytes_ofBytes, List.take_append_getElem hlt]

end

/-- Settles O53: the placed state is framed, and the byte it presents is the one that runs the message
(StepRunsTheDecodedMessage). -/
theorem placedWordRunsNext : Obligations.PlacedWordRunsNext := by
  intro s nbits w i hword
  obtain ⟨hw, henc⟩ := encode_of_decodeTableWord hword
  have hinv := (placeMessage_framed hw s).inv
  obtain ⟨b, hinput, hbytes⟩ := placeMessage_next_byte hw s
  rw [State.withFetchWord, ← henc]
  refine ⟨hinv, _, stepRunsTheDecodedMessage b s.input i _ hinv rfl rfl hinput hw ?_, rfl, rfl, rfl, rfl, rfl⟩
  rw [hbytes, bytesBefore_encode hw]
  by_cases hcap : s.maxPayload < i.operands.length
  · exact .inr ⟨hcap, by rw [if_pos hcap]⟩
  · refine .inl ⟨BitVec.not_lt.mp hcap, ?_⟩
    rw [if_neg hcap, List.take_of_length_le (by rw [encode_length hw]; omega)]

end Sys2Proof.Machine
